-- ==== Sys2Proof/Word.lean ====
section
/-!
DEFINITION. The word and the byte of the machine (spec 00 R6, R11): 32-bit registers, 8-bit memory cells.
-/

namespace Sys2Proof

/-- A register, an operand, an address or an instruction word: 32 bits (R6, R11). -/
abbrev Word := BitVec 32

/-- What one address names: 8 bits (R6, R50). -/
abbrev Byte := BitVec 8

end Sys2Proof
end

