-- ==== Sys2Proof/Machine/BitField.lean ====
section
/-!
DEFINITION. The bit-field utilities of the hardware (spec 00 R8, R9), and the slices the decoder and the memory router
take with them. A contract violation of R9, R10 (a position above 31, an inverted range) is the answer `none`.
-/

namespace Sys2Proof

/-- `v[lo+len-1:lo]`: `len` bits of a word from bit `lo` up (R8). -/
def field (w : Word) (lo len : Nat) : BitVec len :=
  w.extractLsb' lo len

/-- `bit_at(word, pos)` (R9); `none` is the contract violation. -/
def bitAt (w : Word) (pos : Nat) : Option Bool :=
  if pos ≤ 31 then some (w.getLsbD pos) else none

/-- `bits(word, start, end)` (R9), over unbounded naturals; `none` is the contract violation of an inverted range. -/
def bits (w : Word) (start stop : Nat) : Option Nat :=
  if stop < start then none
  else some ((w.toNat >>> start) &&& ((1 <<< (stop - start + 1)) - 1))

/-- A word with bit `pos` forced to `v`, every other bit unchanged (R9). -/
def forceBit (w : Word) (pos : Nat) (v : Bool) : Word :=
  if v then w ||| (1#32 <<< pos) else w &&& ~~~(1#32 <<< pos)

/-- `set_bit(word, pos, value)` (R9); `none` is the contract violation (R10: a bit position above 31). -/
def setBit (w : Word) (pos : Nat) (v : Bool) : Option Word :=
  if pos ≤ 31 then some (forceBit w pos v) else none

/-- The four bytes of a word as memory holds them, the least significant first (R14, R61). -/
def wordBytes (w : Word) : List Byte :=
  [field w 0 8, field w 8 8, field w 16 8, field w 24 8]

/-- The word of four bytes, `b0` the least significant (R14, R59). -/
def joinBytes (b0 b1 b2 b3 : Byte) : Word :=
  b3 ++ b2 ++ b1 ++ b0

end Sys2Proof
end

