-- ==== Sys2Proof/Syntax.lean ====
section
/-!
DEFINITION. The instructions: one constructor of `Instr` per row of spec/opcode_table.json (spec 30 R82 to R87),
with the operand fields the instruction reads. Fields an instruction ignores (R89) are no part of it.
-/

namespace Sys2Proof

/-- The sixteen condition codes of bits 31:28, in the order of their numbers (R113). -/
inductive Cond where
  | eq | ne | cs | cc | mi | pl | vs | vc | hi | ls | ge | lt | gt | le | al | nv
  deriving DecidableEq, Repr

/-- A register index: a 4-bit field, so every index is legal (R20). r13 is SP, r14 LR, r15 PC (R22). -/
abbrev Reg := Fin 16

/-- The shift types of bits 6:5: 00 LSL, 01 LSR, 10 ASR, 11 ROR (R83, decision D11). -/
inductive ShiftKind where
  | lsl | lsr | asr | ror
  deriving DecidableEq, Repr

/-- The shift of a register operand as R93 writes it: `LSL #n` with n from 0 (no shift) to 31, `LSR #n` and `ASR #n`
with n from 1 to 32, `ROR #n` with n from 1 to 31, and `RRX`. `WellFormed` checks the ranges. -/
inductive Shift where
  | lsl (n : Nat)
  | lsr (n : Nat)
  | asr (n : Nat)
  | ror (n : Nat)
  | rrx
  deriving DecidableEq, Repr

/-- Operand 2 (R130): an 8-bit immediate rotated right by twice a 4-bit field, or a register through the shifter. -/
inductive Operand2 where
  | imm (rotate : BitVec 4) (imm8 : BitVec 8)
  | reg (shift : Shift) (rm : Reg)
  deriving DecidableEq, Repr

/-- The six supported data-processing opcodes (R87). -/
inductive DpOp where
  | sub | add | adc | sbc | cmp | mov
  deriving DecidableEq, Repr

/-- Why a word whose condition passed is no instruction of this hardware (R211, decision D22). -/
inductive Reason where
  /-- Bits 27:25 are 010, 011, 100, 110 or 111 (R115). -/
  | cls
  /-- Class 000 or 001 and bits 24:21 are not one of the six opcodes (R161). -/
  | opcode
  /-- Class 000, a supported opcode, and bit 4 is 1 (R133). -/
  | shiftForm
  deriving DecidableEq, Repr

/-- Why a list of bytes decodes to no instruction: fewer than four bytes (R80), or a word that is none (R88). -/
inductive DecodeError where
  | tooFewBytes
  | unimplemented (reason : Reason)
  deriving DecidableEq, Repr

/-- The instructions. `cond` is bits 31:28, `s` the flag-update request of bit 20 (R82). -/
inductive Instr where
  | subImm (cond : Cond) (s : Bool) (rn rd : Reg) (rotate : BitVec 4) (imm8 : BitVec 8)
  | subReg (cond : Cond) (s : Bool) (rn rd : Reg) (shift : Shift) (rm : Reg)
  | addImm (cond : Cond) (s : Bool) (rn rd : Reg) (rotate : BitVec 4) (imm8 : BitVec 8)
  | addReg (cond : Cond) (s : Bool) (rn rd : Reg) (shift : Shift) (rm : Reg)
  | adcImm (cond : Cond) (s : Bool) (rn rd : Reg) (rotate : BitVec 4) (imm8 : BitVec 8)
  | adcReg (cond : Cond) (s : Bool) (rn rd : Reg) (shift : Shift) (rm : Reg)
  | sbcImm (cond : Cond) (s : Bool) (rn rd : Reg) (rotate : BitVec 4) (imm8 : BitVec 8)
  | sbcReg (cond : Cond) (s : Bool) (rn rd : Reg) (shift : Shift) (rm : Reg)
  | cmpImm (cond : Cond) (rn : Reg) (rotate : BitVec 4) (imm8 : BitVec 8)
  | cmpReg (cond : Cond) (rn : Reg) (shift : Shift) (rm : Reg)
  | movImm (cond : Cond) (s : Bool) (rd : Reg) (rotate : BitVec 4) (imm8 : BitVec 8)
  | movReg (cond : Cond) (s : Bool) (rd : Reg) (shift : Shift) (rm : Reg)
  | b (cond : Cond) (imm24 : BitVec 24)
  | bl (cond : Cond) (imm24 : BitVec 24)
  deriving DecidableEq, Repr

/-- The condition field every instruction carries (R81). -/
def Instr.cond : Instr → Cond
  | .subImm c _ _ _ _ _ | .subReg c _ _ _ _ _ | .addImm c _ _ _ _ _ | .addReg c _ _ _ _ _ => c
  | .adcImm c _ _ _ _ _ | .adcReg c _ _ _ _ _ | .sbcImm c _ _ _ _ _ | .sbcReg c _ _ _ _ _ => c
  | .cmpImm c _ _ _ | .cmpReg c _ _ _ | .movImm c _ _ _ _ | .movReg c _ _ _ _ => c
  | .b c _ | .bl c _ => c

/-- The register a data-processing instruction writes its result to (R153); CMP and the branches have none. -/
def Instr.dest? : Instr → Option Reg
  | .subImm _ _ _ d _ _ | .subReg _ _ _ d _ _ | .addImm _ _ _ d _ _ | .addReg _ _ _ d _ _ => some d
  | .adcImm _ _ _ d _ _ | .adcReg _ _ _ d _ _ | .sbcImm _ _ _ d _ _ | .sbcReg _ _ _ d _ _ => some d
  | .movImm _ _ d _ _ | .movReg _ _ d _ _ => some d
  | .cmpImm _ _ _ _ | .cmpReg _ _ _ _ | .b _ _ | .bl _ _ => none

/-- The instruction updates flags: its S bit, and CMP always (R151). -/
def Instr.setsFlags : Instr → Bool
  | .subImm _ f _ _ _ _ | .subReg _ f _ _ _ _ | .addImm _ f _ _ _ _ | .addReg _ f _ _ _ _ => f
  | .adcImm _ f _ _ _ _ | .adcReg _ f _ _ _ _ | .sbcImm _ f _ _ _ _ | .sbcReg _ f _ _ _ _ => f
  | .movImm _ f _ _ _ | .movReg _ f _ _ _ => f
  | .cmpImm _ _ _ _ | .cmpReg _ _ _ _ => true
  | .b _ _ | .bl _ _ => false

end Sys2Proof
end

