-- ==== Sys2Proof/WellFormed.lean ====
section
/-!
DEFINITION. Which instructions have an encoding. Every field but the shift amount of a register operand has a type
that admits exactly the values its bits encode; the amounts have the ranges of spec 30 R93.
-/

namespace Sys2Proof

/-- The ranges of R93: LSL 0 to 31, LSR and ASR 1 to 32, ROR 1 to 31 (its amount 0 is RRX). -/
def Shift.wf : Shift → Bool
  | .lsl n => decide (n ≤ 31)
  | .lsr n => decide (1 ≤ n ∧ n ≤ 32)
  | .asr n => decide (1 ≤ n ∧ n ≤ 32)
  | .ror n => decide (1 ≤ n ∧ n ≤ 31)
  | .rrx => true

/-- An instruction has an encoding when the shift of its register operand, if it has one, is in range (R93). -/
def Instr.wf : Instr → Bool
  | .subReg _ _ _ _ sh _ | .addReg _ _ _ _ sh _ | .adcReg _ _ _ _ sh _ | .sbcReg _ _ _ _ sh _ => sh.wf
  | .cmpReg _ _ sh _ | .movReg _ _ _ sh _ => sh.wf
  | .subImm _ _ _ _ _ _ | .addImm _ _ _ _ _ _ | .adcImm _ _ _ _ _ _ | .sbcImm _ _ _ _ _ _ => true
  | .cmpImm _ _ _ _ | .movImm _ _ _ _ _ | .b _ _ | .bl _ _ => true

end Sys2Proof
end

