-- ==== Sys2Proof/Decode.lean ====
section
/-!
DEFINITION. The decoder, total on words and on byte lists, and the encoder written from the same tables
(spec 30 R80 to R92). The decoder looks at bits 27:0 in the order of R88; the condition itself is tested by the step
sequencer (40 R112), before it asks what the word is.
-/

namespace Sys2Proof

/-- The condition code with a number (R113). -/
def Cond.ofBits (k : BitVec 4) : Cond :=
  match k.toNat with
  | 0 => .eq | 1 => .ne | 2 => .cs | 3 => .cc | 4 => .mi | 5 => .pl | 6 => .vs | 7 => .vc
  | 8 => .hi | 9 => .ls | 10 => .ge | 11 => .lt | 12 => .gt | 13 => .le | 14 => .al | _ => .nv

/-- The number of a condition code (R113). -/
def Cond.bits : Cond → BitVec 4
  | .eq => 0b0000#4 | .ne => 0b0001#4 | .cs => 0b0010#4 | .cc => 0b0011#4
  | .mi => 0b0100#4 | .pl => 0b0101#4 | .vs => 0b0110#4 | .vc => 0b0111#4
  | .hi => 0b1000#4 | .ls => 0b1001#4 | .ge => 0b1010#4 | .lt => 0b1011#4
  | .gt => 0b1100#4 | .le => 0b1101#4 | .al => 0b1110#4 | .nv => 0b1111#4

/-- The shift type with a number (R83, decision D11; log 11). -/
def ShiftKind.ofBits (k : BitVec 2) : ShiftKind :=
  match k.toNat with
  | 0 => .lsl | 1 => .lsr | 2 => .asr | _ => .ror

/-- The number of a shift type (R83). -/
def ShiftKind.bits : ShiftKind → BitVec 2
  | .lsl => 0b00#2 | .lsr => 0b01#2 | .asr => 0b10#2 | .ror => 0b11#2

/-- The shift a (type, amount) pair spells (R93): amount 0 is LSR #32, ASR #32 and RRX. -/
def Shift.ofFields (kind : ShiftKind) (amt5 : BitVec 5) : Shift :=
  match kind with
  | .lsl => .lsl amt5.toNat
  | .lsr => .lsr (if amt5 = 0#5 then 32 else amt5.toNat)
  | .asr => .asr (if amt5 = 0#5 then 32 else amt5.toNat)
  | .ror => if amt5 = 0#5 then .rrx else .ror amt5.toNat

/-- The type field of a shift (R93). -/
def Shift.kind : Shift → ShiftKind
  | .lsl _ => .lsl
  | .lsr _ => .lsr
  | .asr _ => .asr
  | .ror _ | .rrx => .ror

/-- The amount field of a shift (R93): n mod 32, and 0 for RRX. -/
def Shift.amt5 : Shift → BitVec 5
  | .lsl n | .lsr n | .asr n | .ror n => BitVec.ofNat 5 n
  | .rrx => 0#5

/-- The supported opcode with a number, or none (R87). -/
def DpOp.ofBits? (k : BitVec 4) : Option DpOp :=
  match k.toNat with
  | 0b0010 => some .sub
  | 0b0100 => some .add
  | 0b0101 => some .adc
  | 0b0110 => some .sbc
  | 0b1010 => some .cmp
  | 0b1101 => some .mov
  | _ => none

/-- The number of a supported opcode (R87). -/
def DpOp.bits : DpOp → BitVec 4
  | .sub => 0b0010#4
  | .add => 0b0100#4
  | .adc => 0b0101#4
  | .sbc => 0b0110#4
  | .cmp => 0b1010#4
  | .mov => 0b1101#4

/-- The condition field of a word (R81). -/
def condField (w : Word) : Cond := Cond.ofBits (field w 28 4)

/-- A register field of a word (R20, R82). -/
def regField (w : Word) (lo : Nat) : Reg := (field w lo 4).toFin

/-- The shift field of format DPR: amount in bits 11:7, type in bits 6:5 (R83). -/
def shiftField (w : Word) : Shift := Shift.ofFields (ShiftKind.ofBits (field w 5 2)) (field w 7 5)

/-- A word of format DPI with a supported opcode (R82, R84); CMP ignores S and rd, MOV ignores rn (R89). -/
def decodeImm (op : DpOp) (w : Word) : Instr :=
  let c := condField w
  let s := w.getLsbD 20
  let rn := regField w 16
  let rd := regField w 12
  let rotate := field w 8 4
  let imm8 := field w 0 8
  match op with
  | .sub => .subImm c s rn rd rotate imm8
  | .add => .addImm c s rn rd rotate imm8
  | .adc => .adcImm c s rn rd rotate imm8
  | .sbc => .sbcImm c s rn rd rotate imm8
  | .cmp => .cmpImm c rn rotate imm8
  | .mov => .movImm c s rd rotate imm8

/-- A word of format DPR with a supported opcode and bit 4 = 0 (R82, R83, R89). -/
def decodeReg (op : DpOp) (w : Word) : Instr :=
  let c := condField w
  let s := w.getLsbD 20
  let rn := regField w 16
  let rd := regField w 12
  let sh := shiftField w
  let rm := regField w 0
  match op with
  | .sub => .subReg c s rn rd sh rm
  | .add => .addReg c s rn rd sh rm
  | .adc => .adcReg c s rn rd sh rm
  | .sbc => .sbcReg c s rn rd sh rm
  | .cmp => .cmpReg c rn sh rm
  | .mov => .movReg c s rd sh rm

/-- A word of class 000 or 001: the opcode test, then the shift-form test (R88 steps 4 to 6). -/
def decodeDataProcessing (w : Word) : Except Reason Instr :=
  match DpOp.ofBits? (field w 21 4) with
  | none => .error .opcode
  | some op =>
    if w.getLsbD 25 then .ok (decodeImm op w)
    else if w.getLsbD 4 then .error .shiftForm
    else .ok (decodeReg op w)

/-- A word of class 101: L = 0 is B, L = 1 is BL (R85). -/
def decodeBranch (w : Word) : Instr :=
  if w.getLsbD 24 then .bl (condField w) (field w 0 24) else .b (condField w) (field w 0 24)

/-- What a word is, in the order of R88 steps 2 to 6, or why it is no instruction. -/
def decode (w : Word) : Except Reason Instr :=
  if field w 25 3 = 0b101#3 then .ok (decodeBranch w)
  else if field w 25 3 = 0b000#3 ∨ field w 25 3 = 0b001#3 then decodeDataProcessing w
  else .error .cls

/-- Decoding an instruction from the bytes that memory holds, the first at the lowest address (R80, R14): the
instruction and the bytes after it, or why there is none. -/
def decodeBytes : List Byte → Except DecodeError (Instr × List Byte)
  | b0 :: b1 :: b2 :: b3 :: rest =>
    match decode (joinBytes b0 b1 b2 b3) with
    | .ok i => .ok (i, rest)
    | .error r => .error (.unimplemented r)
  | _ => .error .tooFewBytes

/-- What the decoder reads from an instruction whose bits are `w`, `nbits` of them, bit 0 the least significant of the
first byte (spec/opcode_table.json's numbering; log 25). -/
def decodeTableWord (nbits w : Nat) : Option Instr :=
  match decodeBytes (wordBytes (BitVec.ofNat 32 (w % 2 ^ nbits))) with
  | .ok (i, _) => some i
  | .error _ => none

/-! ### The encoder -/

/-- A word of format DPI (R82). -/
def encodeImm (c : Cond) (op : DpOp) (s : Bool) (rn rd : Reg) (rotate : BitVec 4) (imm8 : BitVec 8) : Word :=
  c.bits ++ 0b001#3 ++ op.bits ++ BitVec.ofBool s ++ BitVec.ofFin (w := 4) rn ++ BitVec.ofFin (w := 4) rd ++ rotate ++ imm8

/-- A word of format DPR with bit 4 = 0 (R82, R83). -/
def encodeReg (c : Cond) (op : DpOp) (s : Bool) (rn rd : Reg) (sh : Shift) (rm : Reg) : Word :=
  c.bits ++ 0b000#3 ++ op.bits ++ BitVec.ofBool s ++ BitVec.ofFin (w := 4) rn ++ BitVec.ofFin (w := 4) rd
    ++ sh.amt5 ++ sh.kind.bits ++ 0b0#1 ++ BitVec.ofFin (w := 4) rm

/-- A word of format BR (R85). -/
def encodeBranch (c : Cond) (link : Bool) (imm24 : BitVec 24) : Word :=
  c.bits ++ 0b101#3 ++ BitVec.ofBool link ++ imm24

/-- The word of an instruction. Ignored fields are assembled as R93 says: CMP with S = 1 and rd = 0, MOV with rn = 0. -/
def encode : Instr → Word
  | .subImm c s rn rd rotate imm8 => encodeImm c .sub s rn rd rotate imm8
  | .subReg c s rn rd sh rm => encodeReg c .sub s rn rd sh rm
  | .addImm c s rn rd rotate imm8 => encodeImm c .add s rn rd rotate imm8
  | .addReg c s rn rd sh rm => encodeReg c .add s rn rd sh rm
  | .adcImm c s rn rd rotate imm8 => encodeImm c .adc s rn rd rotate imm8
  | .adcReg c s rn rd sh rm => encodeReg c .adc s rn rd sh rm
  | .sbcImm c s rn rd rotate imm8 => encodeImm c .sbc s rn rd rotate imm8
  | .sbcReg c s rn rd sh rm => encodeReg c .sbc s rn rd sh rm
  | .cmpImm c rn rotate imm8 => encodeImm c .cmp true rn 0 rotate imm8
  | .cmpReg c rn sh rm => encodeReg c .cmp true rn 0 sh rm
  | .movImm c s rd rotate imm8 => encodeImm c .mov s 0 rd rotate imm8
  | .movReg c s rd sh rm => encodeReg c .mov s 0 rd sh rm
  | .b c imm24 => encodeBranch c false imm24
  | .bl c imm24 => encodeBranch c true imm24

/-! ### The match and mask table of R92 -/

/-- The mask of an instruction's row (R92). -/
def Instr.mask : Instr → Word
  | .subImm _ _ _ _ _ _ | .addImm _ _ _ _ _ _ | .adcImm _ _ _ _ _ _ | .sbcImm _ _ _ _ _ _ => 0x0FE00000#32
  | .cmpImm _ _ _ _ | .movImm _ _ _ _ _ => 0x0FE00000#32
  | .subReg _ _ _ _ _ _ | .addReg _ _ _ _ _ _ | .adcReg _ _ _ _ _ _ | .sbcReg _ _ _ _ _ _ => 0x0FE00010#32
  | .cmpReg _ _ _ _ | .movReg _ _ _ _ _ => 0x0FE00010#32
  | .b _ _ | .bl _ _ => 0x0F000000#32

/-- The match value of an instruction's row (R92). -/
def Instr.pattern : Instr → Word
  | .subImm _ _ _ _ _ _ => 0x02400000#32
  | .subReg _ _ _ _ _ _ => 0x00400000#32
  | .addImm _ _ _ _ _ _ => 0x02800000#32
  | .addReg _ _ _ _ _ _ => 0x00800000#32
  | .adcImm _ _ _ _ _ _ => 0x02A00000#32
  | .adcReg _ _ _ _ _ _ => 0x00A00000#32
  | .sbcImm _ _ _ _ _ _ => 0x02C00000#32
  | .sbcReg _ _ _ _ _ _ => 0x00C00000#32
  | .cmpImm _ _ _ _ => 0x03400000#32
  | .cmpReg _ _ _ _ => 0x01400000#32
  | .movImm _ _ _ _ _ => 0x03A00000#32
  | .movReg _ _ _ _ _ => 0x01A00000#32
  | .b _ _ => 0x0A000000#32
  | .bl _ _ => 0x0B000000#32

/-- The fourteen rows (mask, match) of R92, in its order. -/
def opcodeRows : List (Word × Word) :=
  [(0x0FE00000#32, 0x02400000#32), (0x0FE00010#32, 0x00400000#32),
   (0x0FE00000#32, 0x02800000#32), (0x0FE00010#32, 0x00800000#32),
   (0x0FE00000#32, 0x02A00000#32), (0x0FE00010#32, 0x00A00000#32),
   (0x0FE00000#32, 0x02C00000#32), (0x0FE00010#32, 0x00C00000#32),
   (0x0FE00000#32, 0x03400000#32), (0x0FE00010#32, 0x01400000#32),
   (0x0FE00000#32, 0x03A00000#32), (0x0FE00010#32, 0x01A00000#32),
   (0x0F000000#32, 0x0A000000#32), (0x0F000000#32, 0x0B000000#32)]

/-- The bits of an instruction's word that the hardware does not read (R89). -/
def Instr.ignoredBits : Instr → Word
  | .cmpImm _ _ _ _ | .cmpReg _ _ _ _ => 0x0010F000#32
  | .movImm _ _ _ _ _ | .movReg _ _ _ _ _ => 0x000F0000#32
  | .subImm _ _ _ _ _ _ | .addImm _ _ _ _ _ _ | .adcImm _ _ _ _ _ _ | .sbcImm _ _ _ _ _ _ => 0#32
  | .subReg _ _ _ _ _ _ | .addReg _ _ _ _ _ _ | .adcReg _ _ _ _ _ _ | .sbcReg _ _ _ _ _ _ => 0#32
  | .b _ _ | .bl _ _ => 0#32

/-- How the assembler of R93 fills the ignored bits: S = 1 and rd = 0 for CMP, rn = 0 for MOV. -/
def Instr.assembledBits : Instr → Word
  | .cmpImm _ _ _ _ | .cmpReg _ _ _ _ => 0x00100000#32
  | .movImm _ _ _ _ _ | .movReg _ _ _ _ _ => 0#32
  | .subImm _ _ _ _ _ _ | .addImm _ _ _ _ _ _ | .adcImm _ _ _ _ _ _ | .sbcImm _ _ _ _ _ _ => 0#32
  | .subReg _ _ _ _ _ _ | .addReg _ _ _ _ _ _ | .adcReg _ _ _ _ _ _ | .sbcReg _ _ _ _ _ _ => 0#32
  | .b _ _ | .bl _ _ => 0#32

end Sys2Proof
end

