-- ==== Sys2Proof/Config.lean ====
section
/-!
DEFINITION. The parameters of the hardware (spec 00 R6 and R7), fixed for the life of the machine. R6's are the
source's; R7's are the spec's defaults for what the source leaves open, each with its log entry.
-/

namespace Sys2Proof

/-- One instruction width in bytes, the generic advance of the program counter (R6, R116). -/
abbrev Config.instrWidth : Word := 4#32

/-- BRANCH_PIPE_OFFSET (R6, R181). -/
abbrev Config.branchPipeOffset : Word := 8#32

/-- PC_READ_OFFSET: what an operand read of r15 adds to the fetch address (R7, R26, decision D9).
PRESUMED, unsafe: log 9. -/
abbrev Config.pcReadOffset : Word := 8#32

/-- PC_RESET (R7, R36, decision D1). DEDUCED: log 2. -/
abbrev Config.pcReset : Word := 0x08000000#32

/-- SP_RESET (R7, R36, decision D2). PRESUMED, unsafe: log 1. -/
abbrev Config.spReset : Word := 0x03007F00#32

/-- GPR_RESET, for r0 to r12 and r14 (R7, R36, decision D3). DESIGN CHOICE of the spec, unsafe: log 1. -/
abbrev Config.gprReset : Word := 0#32

/-- MODE_WIDTH: the mode field is the low bits of the status register, this many (R7, R27, R29, decision D4).
PRESUMED: log 3. -/
abbrev Config.modeWidth : Nat := 5

/-- MODE_RESET: the mode field after reset, the family's User mode (R7, R36, decision D4). PRESUMED: log 3. -/
abbrev Config.modeReset : BitVec Config.modeWidth := 0b10000#5

/-- N, Z, C, V after reset (R36): Z and C set are the source's; N and V clear are decision D4, DESIGN CHOICE: log 3. -/
abbrev Config.flagsReset : BitVec 4 := 0b0110#4

/-- The status register after reset (R27, R36): the flags, the bits without a function clear (decision D4,
DESIGN CHOICE: log 3), the mode. -/
abbrev Config.cpsrReset : Word := Config.flagsReset ++ BitVec.zero (28 - Config.modeWidth) ++ Config.modeReset

/-- ADDR_WRAP: address and program counter arithmetic at the top of the space is modulo this (R7, decision D8).
DESIGN CHOICE of the spec, unsafe: log 8. -/
abbrev Config.addrWrap : Nat := 2 ^ 32

/-- Reset value of a saved-status slot (R32, decision D5). DESIGN CHOICE: log 4. -/
abbrev Config.savedReset : Word := 0#32

/-- EWRAM_BASE, EWRAM_SIZE (R6, R51). -/
abbrev Config.ewramBase : Nat := 0x02000000
abbrev Config.ewramSize : Nat := 0x00040000

/-- IWRAM_BASE, IWRAM_SIZE (R6, R51). -/
abbrev Config.iwramBase : Nat := 0x03000000
abbrev Config.iwramSize : Nat := 0x00008000

/-- ROM_BASE and the size of the ROM window, 0x08000000 to 0x0DFFFFFF (R6, R51). -/
abbrev Config.romBase : Nat := 0x08000000
abbrev Config.romWindow : Nat := 0x06000000

/-- VRAM_SIZE, "24 KiB equivalent" (R6, R33). The buffer has no address. -/
abbrev Config.vramSize : Nat := 24576

end Sys2Proof
end

