-- ==== Sys2Proof/Machine/State.lean ====
section
/-!
DEFINITION. The state of the machine: everything the spec says it holds (spec 00 R19, 10 R20 to R35), as plain data,
its value after reset (10 R36), and the reasons a step can stop.
-/

namespace Sys2Proof.Machine

/-- Bytes by address, in one canonical form: addresses strictly rising, and no cell that holds `unlistedByte`.
EWRAM, IWRAM and the ROM image lie in one such list, each byte at its address; log 19. -/
abbrev Memory := List Host.Cell

/-- What a byte no cell lists reads as: zero, the reset content of every memory (R36, R240, decision D6; log 5) and what
an address without a backing byte reads as (R55, R56). -/
def unlistedByte : Byte := 0#8

/-- The state of the block (R19). -/
structure State where
  /-- r0 to r15 (R20); slot 15 is the program counter (R24). -/
  regs : Vector Word 16
  /-- The status register: N, Z, C, V in bits 31 to 28, the inert mode field in bits 4 to 0 (R27). -/
  cpsr : Word
  /-- The six inert saved-status slots (R32). -/
  saved : Vector Word 6
  /-- The bytes of EWRAM, IWRAM and the ROM image, by address (R34, R51). -/
  mem : Memory
  /-- ROM_LEN, the length in bytes of the program image (R35). -/
  romLen : Nat
  /-- The inert video buffer, by index; no address reaches it (R33, R71). -/
  vram : Memory
  deriving DecidableEq, Repr

/-- The four condition flags (R28). -/
inductive Flag where
  | n | z | c | v
  deriving DecidableEq, Repr

/-- The four flag bits together (R27). -/
structure Nzcv where
  n : Bool
  z : Bool
  c : Bool
  v : Bool
  deriving DecidableEq, Repr

/-- Why the machine stops. -/
inductive Fault where
  /-- The unimplemented-instruction fault (R210, R212): raised by a step, and only by a step, when the condition of the
  fetched word passes and the word is none of the instructions; the report holds the word and its address. The faulting
  step changes no state (R213), and stepping the same state again raises it again (R214). Safe: the hardware stops
  there too. -/
  | unimplemented (reason : Reason) (word addr : Word)
  deriving DecidableEq, Repr

/-- Why an instruction has no meaning in this model. -/
inductive Refusal where
  /-- Raised by an arm of `exec` whose instruction has no meaning yet; no arm of this model does. Safe: the model stops
  where the hardware goes on. -/
  | notModelled (mnemonic : String)
  deriving DecidableEq, Repr

/-- What a step, or one instruction, answers (R118; a refusal is the interface's third case and never occurs here). -/
abbrev Result := Host.Outcome State Fault Refusal

/-- The machine right after `reset()` (R36, R240): r13 and r15 at their boot values, the other registers zero, Z and C
set, the saved-status slots and every memory byte zero, no program image. The spec's own choices among these values:
log 1 to 6. -/
def State.reset : State where
  regs := #v[Config.gprReset, Config.gprReset, Config.gprReset, Config.gprReset,
             Config.gprReset, Config.gprReset, Config.gprReset, Config.gprReset,
             Config.gprReset, Config.gprReset, Config.gprReset, Config.gprReset,
             Config.gprReset, Config.spReset, Config.gprReset, Config.pcReset]
  cpsr := Config.cpsrReset
  saved := #v[Config.savedReset, Config.savedReset, Config.savedReset,
              Config.savedReset, Config.savedReset, Config.savedReset]
  mem := []
  romLen := 0
  vram := []

end Sys2Proof.Machine
end

