-- ==== Sys2Proof/Machine/Ops.lean ====
section
/-!
DEFINITION. The named operations over registers and memory (spec 10 R21 to R26, 20 R50 to R67), and the one fault of the
hardware (60 R210). There is no other exception, no entry into a handler and no return from one (60 R217, R218).
-/

namespace Sys2Proof.Machine

/-! ### Address arithmetic -/

/-- The sum of an address, or a program counter value, and an offset, modulo ADDR_WRAP (R7, R25, R63, R181, decision D8;
log 8). A negative offset is its two's complement. -/
def addrAdd (a offset : Word) : Word := BitVec.ofNat 32 ((a.toNat + offset.toNat) % Config.addrWrap)

/-! ### Registers -/

/-- `x[i]`: the raw content of a register slot (R21). -/
def State.readReg (s : State) (i : Reg) : Word := s.regs[i]

/-- `x[i] <- v` (R21). No register is hard-wired (R23); slot 15 is the program counter and is written raw (R24). -/
def State.writeReg (s : State) (i : Reg) (v : Word) : State := { s with regs := s.regs.set i v }

/-- The program counter: register slot 15 (R24). At the start of a step it is `A`, the fetch address. -/
def State.pc (s : State) : Word := s.readReg 15

/-- `pc <- target` (R24). -/
def State.setPc (s : State) (target : Word) : State := s.writeReg 15 target

/-- A + 4, the address after the instruction at the program counter: the generic advance and the link value
(R116, R183). -/
def State.nextPc (s : State) : Word := addrAdd s.pc Config.instrWidth

/-- The generic advance by one instruction width (R116). -/
def State.advance (s : State) : State := s.setPc s.nextPc

/-- `Rop(i, A)`: a register read as an operand by the instruction at the program counter; r15 reads as A + 8
(R26, decision D9; log 9). -/
def State.operandReg (s : State) (i : Reg) : Word :=
  if i = 15 then addrAdd s.pc Config.pcReadOffset else s.readReg i

/-! ### The canonical list of cells -/

/-- The byte at a key; a key no cell lists holds `unlistedByte`. -/
def Memory.read : Memory → Nat → Byte
  | [], _ => unlistedByte
  | (k, b) :: m, a => if k = a then b else Memory.read m a

/-- The list with the byte at a key replaced; the canonical form is kept (Laws/Memory.lean). -/
def Memory.write : Memory → Nat → Byte → Memory
  | [], a, v => if v = unlistedByte then [] else [(a, v)]
  | (k, b) :: m, a, v =>
    if a < k then (if v = unlistedByte then (k, b) :: m else (a, v) :: (k, b) :: m)
    else if a = k then (if v = unlistedByte then m else (a, v) :: m)
    else (k, b) :: Memory.write m a v

/-- Every key is at least `lo`, keys rise strictly, and no cell holds `unlistedByte`. -/
def Memory.risingFrom : Nat → Memory → Bool
  | _, [] => true
  | lo, (k, b) :: m => decide (lo ≤ k) && (b != unlistedByte) && Memory.risingFrom (k + 1) m

/-- The canonical form: equal memories are equal lists. -/
def Memory.wf (m : Memory) : Bool := Memory.risingFrom 0 m

/-- The cells of a byte sequence laid from a key up, in canonical form. -/
def Memory.layFrom : Nat → List Byte → Memory
  | _, [] => []
  | a, b :: bs => if b = unlistedByte then Memory.layFrom (a + 1) bs else (a, b) :: Memory.layFrom (a + 1) bs

/-! ### The memory-map router -/

/-- The regions of R51. -/
inductive Region where
  | ewram | iwram | rom | unmapped
  deriving DecidableEq, Repr

/-- The region of an address (R52); an address lies in at most one. -/
def region (a : Word) : Region :=
  if Config.ewramBase ≤ a.toNat ∧ a.toNat < Config.ewramBase + Config.ewramSize then .ewram
  else if Config.iwramBase ≤ a.toNat ∧ a.toNat < Config.iwramBase + Config.iwramSize then .iwram
  else if Config.romBase ≤ a.toNat ∧ a.toNat < Config.romBase + Config.romWindow then .rom
  else .unmapped

/-- The first address of a region (R51); an Unmapped address has no backing store, so no base. -/
def Region.base : Region → Nat
  | .ewram => Config.ewramBase
  | .iwram => Config.iwramBase
  | .rom => Config.romBase
  | .unmapped => 0

/-- The offset of an address in its region (R52). -/
def regionOffset (a : Word) : Nat := a.toNat - (region a).base

/-- An address has a byte behind it: RAM always, the ROM window up to the image's length (R53, R55, R56; beyond the
image: decision D7, log 7). -/
def State.backed (s : State) (a : Word) : Bool :=
  match region a with
  | .ewram | .iwram => true
  | .rom => decide (regionOffset a < s.romLen)
  | .unmapped => false

/-- `read_byte` (R57): the backing byte, or zero where there is none (R55, R56). It changes no state. -/
def State.readByte (s : State) (a : Word) : Byte :=
  if s.backed a then s.mem.read a.toNat else 0#8

/-- `write_byte` (R58): the backing byte is replaced; where there is none the write is discarded (R55, R56). -/
def State.writeByte (s : State) (a : Word) (v : Byte) : State :=
  if s.backed a then { s with mem := s.mem.write a.toNat v } else s

/-- `read_word` (R59): four byte reads at consecutive addresses, each routed on its own, little-endian. No
alignment is enforced (R61). -/
def State.readWord (s : State) (a : Word) : Word :=
  joinBytes (s.readByte a) (s.readByte (addrAdd a 1#32)) (s.readByte (addrAdd a 2#32)) (s.readByte (addrAdd a 3#32))

/-- `write_word` (R60): four byte writes at consecutive addresses, each routed on its own, little-endian. -/
def State.writeWord (s : State) (a : Word) (v : Word) : State :=
  (((s.writeByte a (field v 0 8)).writeByte (addrAdd a 1#32) (field v 8 8)).writeByte
    (addrAdd a 2#32) (field v 16 8)).writeByte (addrAdd a 3#32) (field v 24 8)

/-- `load_image` of readable bytes (R67, R192): the ROM region is replaced wholesale and its length set; nothing else
changes. Image bytes past the window are held, and no address reaches them (R56; log 19). -/
def State.loadImage (s : State) (image : List Byte) : State :=
  { s with
    mem := s.mem.filter (fun cell => decide (cell.1 < Config.romBase)) ++ Memory.layFrom Config.romBase image
    romLen := image.length }

/-! ### The fault -/

/-- `raise Unimplemented(reason, word, addr)` (R210 to R213): the step ends with the report and no state change. -/
def raiseUnimplemented (reason : Reason) (word addr : Word) : Result :=
  .fault (.unimplemented reason word addr)

end Sys2Proof.Machine
end

