-- ==== Sys2Proof/Machine/Flags.lean ====
section
/-!
DEFINITION. The status register's flags, the condition evaluator, the adder and the flag rules
(spec 10 R27 to R30, 40 R113, 42 R150 to R152).
-/

namespace Sys2Proof.Machine

/-- Where a flag stands in the status register (R27). -/
def Flag.bit : Flag → Nat
  | .n => 31
  | .z => 30
  | .c => 29
  | .v => 28

/-- `flag(name)` (R28). -/
def State.flag (s : State) (f : Flag) : Bool := s.cpsr.getLsbD f.bit

/-- `set_flag(name, bool)` (R28): one bit of the status register, every other bit unchanged. -/
def State.setFlag (s : State) (f : Flag) (b : Bool) : State := { s with cpsr := forceBit s.cpsr f.bit b }

/-- The four flags as they stand (R28). -/
def State.nzcv (s : State) : Nzcv := ⟨s.flag .n, s.flag .z, s.flag .c, s.flag .v⟩

/-- The four flags replaced, bits 27 to 0 unchanged (R28, R30). -/
def State.setNzcv (s : State) (f : Nzcv) : State :=
  (((s.setFlag .n f.n).setFlag .z f.z).setFlag .c f.c).setFlag .v f.v

/-- The mode field (R27, R29): inert, so no instruction and no operation of the interface reads it. -/
def State.mode (s : State) : BitVec Config.modeWidth := field s.cpsr 0 Config.modeWidth

/-- `CondPass(cond)` (R113); LE is Z = 1 or N ≠ V (90_conflicts.md C5; log 18). -/
def condPass (c : Cond) (f : Nzcv) : Bool :=
  match c with
  | .eq => f.z
  | .ne => !f.z
  | .cs => f.c
  | .cc => !f.c
  | .mi => f.n
  | .pl => !f.n
  | .vs => f.v
  | .vc => !f.v
  | .hi => f.c && !f.z
  | .ls => !f.c || f.z
  | .ge => f.n == f.v
  | .lt => f.n != f.v
  | .gt => !f.z && f.n == f.v
  | .le => f.z || f.n != f.v
  | .al => true
  | .nv => false

/-- What the ALU hands back: the 32-bit result, the carry and the overflow (R150). -/
structure AluOut where
  result : Word
  carry : Bool
  overflow : Bool
  deriving DecidableEq, Repr

/-- `AddWithCarry(a, b, cin)` (R150): computed exactly over the unbounded integers, then narrowed. -/
def addWithCarry (a b : Word) (cin : Bool) : AluOut :=
  let usum : Nat := a.toNat + b.toNat + cin.toNat
  let ssum : Int := a.toInt + b.toInt + (cin.toNat : Int)
  let result := BitVec.ofNat 32 usum
  { result := result, carry := decide (2 ^ 32 ≤ usum), overflow := decide (result.toInt ≠ ssum) }

/-- The flags an ALU result sets (R151, R153): N the sign bit, Z result equal to zero, C and V as given. -/
def AluOut.flags (out : AluOut) : Nzcv :=
  ⟨out.result.msb, out.result == 0#32, out.carry, out.overflow⟩

end Sys2Proof.Machine
end

