-- ==== Sys2Proof/Machine/Operands.lean ====
section
/-!
DEFINITION. Operand 2 and the barrel shifter (spec 41 R130 to R141). The shifter's details are the spec's decision D11,
from general knowledge of the family; log 11.
-/

namespace Sys2Proof.Machine

/-- `ROR(v, n)` for n below 32 (R11). -/
def rotateRight (v : Word) (n : Nat) : Word :=
  if n = 0 then v else (v >>> n) ||| (v <<< (32 - n))

/-- LSL: amount 0 is no shift and passes the carry through (R135). -/
def shiftLsl (v : Word) (amt5 : BitVec 5) (cin : Bool) : Word × Bool :=
  if amt5 = 0#5 then (v, cin) else (v <<< amt5.toNat, v.getLsbD (32 - amt5.toNat))

/-- LSR: amount 0 means 32 (R136). -/
def shiftLsr (v : Word) (amt5 : BitVec 5) : Word × Bool :=
  if amt5 = 0#5 then (0#32, v.msb) else (v >>> amt5.toNat, v.getLsbD (amt5.toNat - 1))

/-- ASR: amount 0 means 32 (R137). -/
def shiftAsr (v : Word) (amt5 : BitVec 5) : Word × Bool :=
  if amt5 = 0#5 then ((if v.msb then 0xFFFFFFFF#32 else 0#32), v.msb)
  else (v.sshiftRight amt5.toNat, v.getLsbD (amt5.toNat - 1))

/-- ROR, and RRX when the amount is 0 (R138). -/
def shiftRor (v : Word) (amt5 : BitVec 5) (cin : Bool) : Word × Bool :=
  if amt5 = 0#5 then (((BitVec.ofBool cin).zeroExtend 32 <<< 31) ||| (v >>> 1), v.getLsbD 0)
  else (rotateRight v amt5.toNat, v.getLsbD (amt5.toNat - 1))

/-- `Shift(v, stype, amt5, cin)` (R134): the shifted value and the carry-out. -/
def barrelShift (v : Word) (kind : ShiftKind) (amt5 : BitVec 5) (cin : Bool) : Word × Bool :=
  match kind with
  | .lsl => shiftLsl v amt5 cin
  | .lsr => shiftLsr v amt5
  | .asr => shiftAsr v amt5
  | .ror => shiftRor v amt5 cin

/-- The immediate form (R131): the zero-extended byte rotated right by twice the rotate field; the carry-out is C when
the rotation is 0 and bit 31 of the operand otherwise (decision D13; log 13). -/
def immOperand (rotate : BitVec 4) (imm8 : BitVec 8) (cin : Bool) : Word × Bool :=
  let value := rotateRight (imm8.zeroExtend 32) (2 * rotate.toNat)
  (value, if rotate = 0#4 then cin else value.msb)

/-- The register form (R132): the register, r15 as A + 8 (R140), through the shifter. -/
def regOperand (s : State) (shift : Shift) (rm : Reg) : Word × Bool :=
  barrelShift (s.operandReg rm) shift.kind shift.amt5 (s.flag .c)

/-- `Operand2(W, A)` (R141): operand 2 and the shifter carry-out. It reads registers and C and writes nothing. -/
def State.operand2 (s : State) : Operand2 → Word × Bool
  | .imm rotate imm8 => immOperand rotate imm8 (s.flag .c)
  | .reg shift rm => regOperand s shift rm

end Sys2Proof.Machine
end

