-- ==== Sys2Proof/Machine/Execute.lean ====
section
/-!
DEFINITION. What the instructions share: the condition gate (spec 40 R113, R114) and the write-back of the
Data-Processing Executor (42 R153, R154).
-/

namespace Sys2Proof.Machine

/-- An instruction's effect under its condition: when the condition fails the instruction is skipped, and only the
program counter moves, to A + 4 (R114; log 23). -/
def whenPassed (c : Cond) (s : State) (effect : State) : Result :=
  if condPass c s.nzcv then .next effect else .next s.advance

/-- The write-back of an executor that has a destination register (R153): the flags when `sets`, the result to rd, and
the generic advance unless rd is 15, which is a control transfer to the result as it is (R154, decision D10; log 10). -/
def State.writeBack (s : State) (sets : Bool) (rd : Reg) (out : AluOut) : State :=
  let flagged := if sets then s.setNzcv out.flags else s
  if rd = 15 then flagged.writeReg 15 out.result
  else (flagged.writeReg rd out.result).setPc s.nextPc

/-- The write-back of CMP (R153, R159): the flags always, no register, the generic advance. -/
def State.compareBack (s : State) (out : AluOut) : State :=
  (s.setNzcv out.flags).setPc s.nextPc

end Sys2Proof.Machine
end

