-- ==== Sys2Proof/Machine/Arithmetic.lean ====
section
/-!
DEFINITION. SUB, ADD, ADC, SBC (spec 42 R155 to R158), each with an immediate and a register operand 2. Operands and
carry-in are read from the state before the instruction (40 R117).
-/

namespace Sys2Proof.Machine

/-- SUB (R155): rn - operand 2, as the sum with the complement and a carry-in of 1 (R150). -/
def subtract (c : Cond) (sf : Bool) (rn rd : Reg) (op : Operand2) (s : State) : Result :=
  whenPassed c s (s.writeBack sf rd (addWithCarry (s.operandReg rn) (~~~(s.operand2 op).1) true))

/-- ADD (R156): rn + operand 2. -/
def add (c : Cond) (sf : Bool) (rn rd : Reg) (op : Operand2) (s : State) : Result :=
  whenPassed c s (s.writeBack sf rd (addWithCarry (s.operandReg rn) (s.operand2 op).1 false))

/-- ADC (R157): rn + operand 2 + C; the carry-in is the flag, never the shifter carry-out (R139). -/
def addCarry (c : Cond) (sf : Bool) (rn rd : Reg) (op : Operand2) (s : State) : Result :=
  whenPassed c s (s.writeBack sf rd (addWithCarry (s.operandReg rn) (s.operand2 op).1 (s.flag .c)))

/-- SBC (R158): rn + NOT(operand 2) + C (90_conflicts.md C4). -/
def subtractCarry (c : Cond) (sf : Bool) (rn rd : Reg) (op : Operand2) (s : State) : Result :=
  whenPassed c s (s.writeBack sf rd (addWithCarry (s.operandReg rn) (~~~(s.operand2 op).1) (s.flag .c)))

/-- SUB, immediate operand 2 (R155, R131). -/
def execSubImm (c : Cond) (sf : Bool) (rn rd : Reg) (rotate : BitVec 4) (imm8 : BitVec 8) (s : State) : Result :=
  subtract c sf rn rd (.imm rotate imm8) s

/-- SUB, register operand 2 (R155, R132). -/
def execSubReg (c : Cond) (sf : Bool) (rn rd : Reg) (shift : Shift) (rm : Reg) (s : State) : Result :=
  subtract c sf rn rd (.reg shift rm) s

/-- ADD, immediate operand 2 (R156, R131). -/
def execAddImm (c : Cond) (sf : Bool) (rn rd : Reg) (rotate : BitVec 4) (imm8 : BitVec 8) (s : State) : Result :=
  add c sf rn rd (.imm rotate imm8) s

/-- ADD, register operand 2 (R156, R132). -/
def execAddReg (c : Cond) (sf : Bool) (rn rd : Reg) (shift : Shift) (rm : Reg) (s : State) : Result :=
  add c sf rn rd (.reg shift rm) s

/-- ADC, immediate operand 2 (R157, R131). -/
def execAdcImm (c : Cond) (sf : Bool) (rn rd : Reg) (rotate : BitVec 4) (imm8 : BitVec 8) (s : State) : Result :=
  addCarry c sf rn rd (.imm rotate imm8) s

/-- ADC, register operand 2 (R157, R132). -/
def execAdcReg (c : Cond) (sf : Bool) (rn rd : Reg) (shift : Shift) (rm : Reg) (s : State) : Result :=
  addCarry c sf rn rd (.reg shift rm) s

/-- SBC, immediate operand 2 (R158, R131). -/
def execSbcImm (c : Cond) (sf : Bool) (rn rd : Reg) (rotate : BitVec 4) (imm8 : BitVec 8) (s : State) : Result :=
  subtractCarry c sf rn rd (.imm rotate imm8) s

/-- SBC, register operand 2 (R158, R132). -/
def execSbcReg (c : Cond) (sf : Bool) (rn rd : Reg) (shift : Shift) (rm : Reg) (s : State) : Result :=
  subtractCarry c sf rn rd (.reg shift rm) s

end Sys2Proof.Machine
end

