-- ==== Sys2Proof/Machine/Branch.lean ====
section
/-!
DEFINITION. B and BL (spec 43 R180 to R184). No generic advance follows a branch (R184).
-/

namespace Sys2Proof.Machine

/-- The target of a branch at `a` (R181): a + 8 + 4 times the sign-extended offset. -/
def branchTarget (a : Word) (imm24 : BitVec 24) : Word :=
  addrAdd (addrAdd a Config.branchPipeOffset) (imm24.signExtend 32 * 4#32)

/-- B (R182). -/
def execB (c : Cond) (imm24 : BitVec 24) (s : State) : Result :=
  whenPassed c s (s.setPc (branchTarget s.pc imm24))

/-- BL (R183): the link register receives A + 4; both values come from the same A (R117). -/
def execBl (c : Cond) (imm24 : BitVec 24) (s : State) : Result :=
  whenPassed c s ((s.writeReg 14 s.nextPc).setPc (branchTarget s.pc imm24))

end Sys2Proof.Machine
end

