-- ==== Sys2Proof/Machine/CompareMove.lean ====
section
/-!
DEFINITION. CMP and MOV (spec 42 R159, R160), each with an immediate and a register operand 2.
-/

namespace Sys2Proof.Machine

/-- CMP (R159): the flags of rn - operand 2, whatever the S and rd fields are (R89); no register is written. -/
def compare (c : Cond) (rn : Reg) (op : Operand2) (s : State) : Result :=
  whenPassed c s (s.compareBack (addWithCarry (s.operandReg rn) (~~~(s.operand2 op).1) true))

/-- MOV (R160): operand 2; with S = 1 the shifter carry-out goes to C and V stays (decision D13; log 13). -/
def move (c : Cond) (sf : Bool) (rd : Reg) (op : Operand2) (s : State) : Result :=
  whenPassed c s (s.writeBack sf rd
    { result := (s.operand2 op).1, carry := (s.operand2 op).2, overflow := s.flag .v })

/-- CMP, immediate operand 2 (R159, R131). -/
def execCmpImm (c : Cond) (rn : Reg) (rotate : BitVec 4) (imm8 : BitVec 8) (s : State) : Result :=
  compare c rn (.imm rotate imm8) s

/-- CMP, register operand 2 (R159, R132). -/
def execCmpReg (c : Cond) (rn : Reg) (shift : Shift) (rm : Reg) (s : State) : Result :=
  compare c rn (.reg shift rm) s

/-- MOV, immediate operand 2 (R160, R131). -/
def execMovImm (c : Cond) (sf : Bool) (rd : Reg) (rotate : BitVec 4) (imm8 : BitVec 8) (s : State) : Result :=
  move c sf rd (.imm rotate imm8) s

/-- MOV, register operand 2 (R160, R132). -/
def execMovReg (c : Cond) (sf : Bool) (rd : Reg) (shift : Shift) (rm : Reg) (s : State) : Result :=
  move c sf rd (.reg shift rm) s

end Sys2Proof.Machine
end

