-- ==== Sys2Proof/Machine/Dispatch.lean ====
section
/-!
DEFINITION. One arm per constructor of `Instr`, each a call of that instruction's meaning (spec 40 R115).
-/

namespace Sys2Proof.Machine

def exec (i : Instr) (s : State) : Host.Outcome State Fault Refusal :=
  match i with
  | .subImm c sf rn rd rotate imm8 => Sys2Proof.Machine.execSubImm c sf rn rd rotate imm8 s
  | .subReg c sf rn rd shift rm => Sys2Proof.Machine.execSubReg c sf rn rd shift rm s
  | .addImm c sf rn rd rotate imm8 => Sys2Proof.Machine.execAddImm c sf rn rd rotate imm8 s
  | .addReg c sf rn rd shift rm => Sys2Proof.Machine.execAddReg c sf rn rd shift rm s
  | .adcImm c sf rn rd rotate imm8 => Sys2Proof.Machine.execAdcImm c sf rn rd rotate imm8 s
  | .adcReg c sf rn rd shift rm => Sys2Proof.Machine.execAdcReg c sf rn rd shift rm s
  | .sbcImm c sf rn rd rotate imm8 => Sys2Proof.Machine.execSbcImm c sf rn rd rotate imm8 s
  | .sbcReg c sf rn rd shift rm => Sys2Proof.Machine.execSbcReg c sf rn rd shift rm s
  | .cmpImm c rn rotate imm8 => Sys2Proof.Machine.execCmpImm c rn rotate imm8 s
  | .cmpReg c rn shift rm => Sys2Proof.Machine.execCmpReg c rn shift rm s
  | .movImm c sf rd rotate imm8 => Sys2Proof.Machine.execMovImm c sf rd rotate imm8 s
  | .movReg c sf rd shift rm => Sys2Proof.Machine.execMovReg c sf rd shift rm s
  | .b c imm24 => Sys2Proof.Machine.execB c imm24 s
  | .bl c imm24 => Sys2Proof.Machine.execBl c imm24 s

end Sys2Proof.Machine
end

