-- ==== Sys2Proof/Machine/Cycle.lean ====
section
/-!
DEFINITION. One instruction cycle: fetch, condition, decode, dispatch (spec 40 R110 to R119), and where a word must
stand to be the next one fetched.
-/

namespace Sys2Proof.Machine

/-- Fetch (R111): the word at the program counter, through the same router as every access; it enforces no alignment
and raises nothing. -/
def State.fetch (s : State) : Word := s.readWord s.pc

/-- The step after the fetch of a word (R119): the condition is tested before anything else about the word is looked at
(R112), and a word whose condition fails is skipped whatever it is (R114); then the word is decoded and its instruction
executed, or the fault is raised with the word and its address (R88, R212). -/
def runWord (w : Word) (s : State) : Result :=
  if condPass (condField w) s.nzcv then
    match decode w with
    | .ok i => exec i s
    | .error reason => raiseUnimplemented reason w s.pc
  else .next s.advance

/-- The ROM image made long enough to hold the four bytes from the program counter, when these lie in the ROM window;
otherwise the state as it is. -/
def State.growImageToPc (s : State) : State :=
  if Config.romBase ≤ s.pc.toNat ∧ s.pc.toNat + 4 ≤ Config.romBase + Config.romWindow then
    { s with romLen := max s.romLen (s.pc.toNat + 4 - Config.romBase) }
  else s

/-- The four bytes of the word at an address all have backing. -/
def State.wordBacked (s : State) (a : Word) : Bool :=
  s.backed a && s.backed (addrAdd a 1#32) && s.backed (addrAdd a 2#32) && s.backed (addrAdd a 3#32)

/-- Where the word is placed: the program counter, or, where no byte can be stored there, the first address of the
program image, to which the program counter is then set. -/
def State.fetchable (s : State) : State :=
  if s.growImageToPc.wordBacked s.pc then s else s.setPc (BitVec.ofNat 32 Config.romBase)

/-- The state whose next fetch reads `w` (log 21): `w` written at the program counter, the ROM image extended to hold it
when the program counter lies in the ROM window. From reset this is the load of a four-byte image (R242). -/
def State.placeWord (s : State) (w : Word) : State :=
  s.fetchable.growImageToPc.writeWord s.fetchable.pc w

end Sys2Proof.Machine
end

