-- ==== Sys2Proof/Machine/Step.lean ====
section
/-!
DEFINITION. The step of the machine (spec 40 R119), and the state whose next step runs a given word.
-/

namespace Sys2Proof.Machine

/-- `Step()` (R119): fetch at the program counter, then condition, decode and execute. -/
def step (s : State) : Host.Outcome State Fault Refusal :=
  runWord s.fetch s

/-- `s` with the instruction whose low `nbits` bits are `w` stored where `step` fetches next (log 21). -/
def State.withFetchWord (s : State) (nbits w : Nat) : State :=
  s.placeWord (BitVec.ofNat 32 (w % 2 ^ nbits))

end Sys2Proof.Machine
end

