-- ==== Sys2Proof/Machine/Interface.lean ====
section
/-!
DEFINITION. The operations the block offers the agent outside it (spec 44 R190 to R197), each one indivisible
transition made between steps (00 R17); log 20. None of them is part of a step.
-/

namespace Sys2Proof.Machine

/-- The core-exposed operations (R190) and the memory port (R197). The index of `readRegister` has sixteen values, so
the contract violation of R196 cannot be written; log 22. -/
inductive CoreOp where
  /-- `reset()` (R191). -/
  | reset
  /-- `load_image(bytes)` (R192); `none` is a source that cannot be read. -/
  | loadImage (source : Option (List Byte))
  /-- `step()` (R193). -/
  | step
  /-- `read_register(index)` (R194). -/
  | readRegister (i : Reg)
  /-- `read_flag(name)` (R195). -/
  | readFlag (f : Flag)
  /-- The memory port (R197, R57 to R60). -/
  | readByte (a : Word)
  | writeByte (a : Word) (v : Byte)
  | readWord (a : Word)
  | writeWord (a : Word) (v : Word)
  deriving DecidableEq, Repr

/-- What an operation answers its caller. -/
inductive Reply where
  | done
  | word (w : Word)
  | byte (b : Byte)
  | bool (b : Bool)
  /-- The unimplemented-instruction condition of a step (R118, R212). -/
  | fault (f : Fault)
  /-- The image source could not be read: the caller's error, no core fault (R192). -/
  | unreadableSource
  /-- A refusal of the model; no instruction is refused. -/
  | refused (r : Refusal)
  deriving DecidableEq, Repr

/-- One operation: the state after it and its answer. A failed load and a faulting step leave the state as it was
(R192, R213). -/
def CoreOp.apply (op : CoreOp) (s : State) : State × Reply :=
  match op with
  | .reset => (State.reset, .done)
  | .loadImage (some image) => (s.loadImage image, .done)
  | .loadImage none => (s, .unreadableSource)
  | .step =>
    match Sys2Proof.Machine.step s with
    | .next t => (t, .done)
    | .fault f => (s, .fault f)
    | .refused r => (s, .refused r)
  | .readRegister i => (s, .word (s.readReg i))
  | .readFlag f => (s, .bool (s.flag f))
  | .readByte a => (s, .byte (s.readByte a))
  | .writeByte a v => (s.writeByte a v, .done)
  | .readWord a => (s, .word (s.readWord a))
  | .writeWord a v => (s.writeWord a v, .done)

/-- The state after a sequence of operations, the first first. -/
def applyAll : List CoreOp → State → State
  | [], s => s
  | op :: ops, s => applyAll ops (op.apply s).1

end Sys2Proof.Machine
end

