-- ==== Sys2Proof/Machine/WordStep.lean ====
section
/-!
DEFINITION. The step written a second time, straight from the spec's pseudocode over the bits of the fetched word
(spec 40 R119, 41 R141, 42 R153, 43 R180), with no decoded instruction in between. Its sums are sums of 32-bit words
(decision D8; log 8). That it is the step of the machine is a statement of Certificates/Slice0/Obligations.lean.
-/

namespace Sys2Proof.Machine

/-- `Operand2(W, A)` over the word (R141). -/
def wordOperand2 (w : Word) (s : State) : Word × Bool :=
  if w.getLsbD 25 then
    let rot := 2 * (field w 8 4).toNat
    let op2 := rotateRight ((field w 0 8).zeroExtend 32) rot
    (op2, if rot = 0 then s.flag .c else op2.getLsbD 31)
  else
    barrelShift (s.operandReg (regField w 0)) (ShiftKind.ofBits (field w 5 2)) (field w 7 5) (s.flag .c)

/-- The ALU part of R153, by opcode. -/
def wordAlu (opcode : BitVec 4) (a b : Word) (shc : Bool) (s : State) : AluOut :=
  if opcode = 0b0010#4 then addWithCarry a (~~~b) true
  else if opcode = 0b0100#4 then addWithCarry a b false
  else if opcode = 0b0101#4 then addWithCarry a b (s.flag .c)
  else if opcode = 0b0110#4 then addWithCarry a (~~~b) (s.flag .c)
  else if opcode = 0b1010#4 then addWithCarry a (~~~b) true
  else { result := b, carry := shc, overflow := s.flag .v }

/-- The write part of R153: flags, then rd, then the advance unless register 15 was written. -/
def wordWrite (opcode : BitVec 4) (sBit : Bool) (rd : Reg) (out : AluOut) (s : State) : State :=
  let flagged := if sBit = true ∨ opcode = 0b1010#4 then s.setNzcv out.flags else s
  let written := if opcode ≠ 0b1010#4 then flagged.writeReg rd out.result else flagged
  if opcode ≠ 0b1010#4 ∧ rd = 15 then written else written.writeReg 15 (s.pc + 4#32)

/-- `DP(W, A)` (R153). -/
def wordDp (w : Word) (s : State) : Result :=
  let opcode := field w 21 4
  if opcode ∉ [0b0010#4, 0b0100#4, 0b0101#4, 0b0110#4, 0b1010#4, 0b1101#4] then raiseUnimplemented .opcode w s.pc
  else if w.getLsbD 25 = false ∧ w.getLsbD 4 = true then raiseUnimplemented .shiftForm w s.pc
  else
    let op2 := wordOperand2 w s
    let a := s.operandReg (regField w 16)
    .next (wordWrite opcode (w.getLsbD 20) (regField w 12) (wordAlu opcode a op2.1 op2.2 s) s)

/-- `Branch(W, A)` (R180). -/
def wordBranch (w : Word) (s : State) : Result :=
  let offset := (field w 0 24).signExtend 32 * 4#32
  let linked := if w.getLsbD 24 then s.writeReg 14 (s.pc + 4#32) else s
  .next (linked.writeReg 15 (s.pc + 8#32 + offset))

/-- `Step()` (R119). -/
def wordStep (s : State) : Result :=
  let w := s.readWord (s.readReg 15)
  if condPass (Cond.ofBits (field w 28 4)) s.nzcv = false then .next (s.writeReg 15 (s.readReg 15 + 4#32))
  else if field w 25 3 = 0b000#3 ∨ field w 25 3 = 0b001#3 then wordDp w s
  else if field w 25 3 = 0b101#3 then wordBranch w s
  else raiseUnimplemented .cls w s.pc

end Sys2Proof.Machine
end

