-- ==== Sys2Proof/Safety.lean ====
section
/-!
DEFINITION. The terms the statements use: what an instruction leaves alone, what each shape of instruction does to a
state, and the invariant of every state a run can reach.
-/

namespace Sys2Proof.Machine

/-! ### What no instruction touches -/

/-- What no step changes (spec 10 R37, 20 R64, 60 R219): bits 27:0 of the status register, the saved-status slots, the
video buffer, ROM_LEN and every byte of memory. -/
structure SameInert (s t : State) : Prop where
  statusLow : t.cpsr.extractLsb' 0 28 = s.cpsr.extractLsb' 0 28
  saved : t.saved = s.saved
  vram : t.vram = s.vram
  romLen : t.romLen = s.romLen
  mem : t.mem = s.mem
  bytes : ∀ a, t.readByte a = s.readByte a

/-! ### The shapes of effect -/

/-- The instruction is skipped (R114): the program counter moves by 4 and nothing else changes. -/
structure Skipped (s t : State) : Prop where
  pc : t.pc = s.pc + 4#32
  registers : ∀ i, i ≠ 15 → t.readReg i = s.readReg i
  flags : t.nzcv = s.nzcv
  inert : SameInert s t

/-- A data-processing instruction with destination rd (R153, R154): rd holds the result; the program counter moves by 4
unless it is rd; the flags become `f` when `sets`; no other register and nothing inert changes. -/
structure WroteResult (s t : State) (sets : Bool) (rd : Reg) (r : Word) (f : Nzcv) : Prop where
  dest : t.readReg rd = r
  pc : rd ≠ 15 → t.pc = s.pc + 4#32
  others : ∀ i, i ≠ rd → i ≠ 15 → t.readReg i = s.readReg i
  flags : t.nzcv = if sets then f else s.nzcv
  inert : SameInert s t

/-- A compare (R159): the flags become `f`, the program counter moves by 4, no register and nothing inert changes. -/
structure Compared (s t : State) (f : Nzcv) : Prop where
  pc : t.pc = s.pc + 4#32
  registers : ∀ i, i ≠ 15 → t.readReg i = s.readReg i
  flags : t.nzcv = f
  inert : SameInert s t

/-- A branch to `target` (R180): the link register receives A + 4 when `link`, nothing else changes. -/
structure Branched (s t : State) (link : Bool) (target : Word) : Prop where
  pc : t.pc = target
  linkReg : t.readReg 14 = if link then s.pc + 4#32 else s.readReg 14
  others : ∀ i, i ≠ 14 → i ≠ 15 → t.readReg i = s.readReg i
  flags : t.nzcv = s.nzcv
  inert : SameInert s t

/-- Every word that matches a row is decoded to that row's instruction, with these fields (R92). -/
def DecodesAs (mask pattern : Word) (mk : Word → Instr) : Prop :=
  ∀ w : Word, w &&& mask = pattern → decode w = .ok (mk w)

/-- The fetched word's condition passes (R113). -/
def State.passes (s : State) : Bool := condPass (condField s.fetch) s.nzcv

/-- Every fetched word that matches raises the fault when its condition passes, with the word and its address (R212). -/
def RaisesOn (mask pattern : Word) (reason : Reason) : Prop :=
  ∀ s : State, s.passes = true → s.fetch &&& mask = pattern →
    step s = .fault (.unimplemented reason s.fetch s.pc)

/-! ### The invariant of a run -/

/-- A cell's key lies in a backing store: RAM, or the ROM image (R34, R51). -/
def State.ownsKey (s : State) (k : Nat) : Bool :=
  decide (Config.ewramBase ≤ k ∧ k < Config.ewramBase + Config.ewramSize) ||
  decide (Config.iwramBase ≤ k ∧ k < Config.iwramBase + Config.iwramSize) ||
  decide (Config.romBase ≤ k ∧ k < Config.romBase + s.romLen)

/-- What holds of every state a run can reach: memory is in its canonical form and lists only bytes that exist; the mode
and the other bits 27:0 of the status register, the saved-status slots and the video buffer are as reset left them
(R29, R32, R33, R37, R219). -/
def State.inv (s : State) : Bool :=
  s.mem.wf && s.mem.all (fun cell => s.ownsKey cell.1) &&
  (s.cpsr.extractLsb' 0 28 == 0x0000010#28) &&
  decide (s.saved = State.reset.saved) && decide (s.vram = [])

end Sys2Proof.Machine
end

