-- ==== Sys2Proof/Certificates/Slice0/Obligations.lean ====
section
/-!
DEFINITION. The statements for the provers, one `def Obligations.<Name> : Prop` each, listed in OBLIGATIONS.json. Each
docstring says which rule of spec/ it formalises; where a clause rests on a decision of the spec's own (D1 to D22 of
92_eei_decisions.md) or on a log entry, it says so.
-/

open Sys2Proof
open Sys2Proof.Machine

/-! ### Encoding -/

/-- Decoding the encoding of a well-formed instruction gives it back, every operand at every value (30 R82 to R85).
The shift types and amounts are the spec's decision D11 (log 11), their spelling and the filling of ignored fields D18
(log 17, 24). Further: S and rd of CMP and rn of MOV accept every value by D17 (log 17). -/
def Obligations.DecodeUndoesEncode : Prop :=
  ∀ i : Instr, i.wf = true → decode (encode i) = .ok i

/-- What the decoder answers is well formed, and encodes back to the word it was read from, but for the bits the
hardware does not read, which the encoder fills as R93 says (30 R89, R93; decisions D17, D18; log 17). The shift types
and amounts are the spec's decision D11 (log 11), in the spelling of log 24. Further: bit 4 of a register operand must
be 0 by D12 (log 12). -/
def Obligations.EncodeUndoesDecode : Prop :=
  ∀ (w : Word) (i : Instr), decode w = .ok i →
    i.wf = true ∧ encode i = (w &&& ~~~i.ignoredBits) ||| i.assembledBits

/-- The match and mask table of 30 R92 (the spec's own derivation): a word is an instruction exactly when it matches a
row, the row of the instruction it decodes to; no word matches two rows. Their bit 4 is the spec's decision D12 (log
12). Further: S and rd of CMP and rn of MOV accept every value by D17 (log 17). -/
def Obligations.DecodeAgreesWithMatchMaskRows : Prop :=
  (∀ (w : Word) (i : Instr), decode w = .ok i →
    (i.mask, i.pattern) ∈ opcodeRows ∧ w &&& i.mask = i.pattern) ∧
  (∀ (w : Word) (row : Word × Word), row ∈ opcodeRows → w &&& row.1 = row.2 →
    ∃ i, decode w = .ok i ∧ (i.mask, i.pattern) = row) ∧
  (∀ (w : Word) (row row' : Word × Word), row ∈ opcodeRows → row' ∈ opcodeRows →
    w &&& row.1 = row.2 → w &&& row'.1 = row'.2 → row = row')

/-- Words of spec/95_test_vectors.md, at least one of each mnemonic, decode to the instructions named there. RRX is
the spec's decision D11 (log 11), SHIFT_FORM D12 (log 12), the symbols of the reasons D22 (log 16). Further: S and rd
of CMP and rn of MOV accept every value by D17 (log 17), the spelling of a shift is the model's (log 24). -/
def Obligations.SpecWordsDecodeAsNamed : Prop :=
  decode 0xE2810020#32 = .ok (.addImm .al false 1 0 0x0#4 0x20#8) ∧
  decode 0xE1A01000#32 = .ok (.movReg .al false 1 (.lsl 0) 0) ∧
  decode 0xE2414005#32 = .ok (.subImm .al false 1 4 0x0#4 0x05#8) ∧
  decode 0xE1500001#32 = .ok (.cmpReg .al 0 (.lsl 0) 1) ∧
  decode 0xE0A10002#32 = .ok (.adcReg .al false 1 0 (.lsl 0) 2) ∧
  decode 0xE0D10002#32 = .ok (.sbcReg .al true 1 0 (.lsl 0) 2) ∧
  decode 0xE1B00061#32 = .ok (.movReg .al true 0 .rrx 1) ∧
  decode 0x1B000001#32 = .ok (.bl .ne 0x000001#24) ∧
  decode 0xEAFFFFFB#32 = .ok (.b .al 0xFFFFFB#24) ∧
  decode 0xE5910000#32 = .error .cls ∧
  decode 0xE0010002#32 = .error .opcode ∧
  decode 0xE0810312#32 = .error .shiftForm

/-- The decoder reads a table word from its four bytes, the least significant first (00 R14; log 25). -/
def Obligations.TableWordIsReadFromItsBytes : Prop :=
  ∀ w : Word, decodeTableWord 32 w.toNat = (decode w).toOption

/-! ### Bit-field utilities -/

/-- 00 section on the bit utilities (R9, R10; `bits` over unbounded naturals is the spec's derivation): what bit_at,
bits and set_bit answer, when they are contract violations, and their laws. Further: a contract violation is none (log
22). -/
def Obligations.BitUtilitiesObeyTheirLaws : Prop :=
  (∀ (w : Word) (pos : Nat), bitAt w pos = if 31 < pos then none else some (w.toNat.testBit pos)) ∧
  (∀ (w : Word) (s e : Nat), bits w s e = none ↔ e < s) ∧
  (∀ (w : Word) (s e n : Nat), bits w s e = some n →
    n = (w.toNat >>> s) &&& ((1 <<< (e - s + 1)) - 1) ∧ n < 2 ^ (e - s + 1)) ∧
  (∀ (w : Word) (pos : Nat) (v : Bool), pos ≤ 31 →
    ∃ w', setBit w pos v = some w' ∧ bitAt w' pos = some v ∧ ∀ q, q ≠ pos → bitAt w' q = bitAt w q) ∧
  (∀ (w : Word) (pos : Nat) (v : Bool), 31 < pos → setBit w pos v = none)

/-- 00 R8: the slice v[hi:lo] is the source's bits(v, lo, hi), bit `lo` the low end, and v[i] is bit_at(v, i). -/
def Obligations.FieldsAreBitSlices : Prop :=
  (∀ (w : Word) (lo len : Nat), 0 < len → lo + len ≤ 32 →
    bits w lo (lo + len - 1) = some (field w lo len).toNat) ∧
  (∀ (w : Word) (i : Nat), i ≤ 31 → bitAt w i = some (w.getLsbD i) ∧ bits w i i = some (w.getLsbD i).toNat)

/-! ### Registers and flags -/

/-- 10 R21: a register write is read back, for each of the sixteen slots, and touches no other slot and no flag. -/
def Obligations.RegisterWriteTouchesOneSlot : Prop :=
  ∀ (s : State) (i j : Reg) (v : Word),
    (s.writeReg i v).readReg j = (if j = i then v else s.readReg j) ∧ (s.writeReg i v).cpsr = s.cpsr

/-- A flag write sets one flag, leaves the other three and bits 27:0 of the status register, and touches no register
and no byte (10 section 3). -/
def Obligations.FlagWriteTouchesOneFlag : Prop :=
  ∀ (s : State) (f g : Flag) (b : Bool),
    (s.setFlag f b).flag g = (if g = f then b else s.flag g) ∧
    (∀ i, (s.setFlag f b).readReg i = s.readReg i) ∧ SameInert s (s.setFlag f b) ∧
    s.flag .n = s.cpsr.getLsbD 31 ∧ s.flag .z = s.cpsr.getLsbD 30 ∧
    s.flag .c = s.cpsr.getLsbD 29 ∧ s.flag .v = s.cpsr.getLsbD 28

/-- The state after the reset operation, from any state (10 R36). r1, Z and C are the source's; the other values are
the spec's own decisions D1 to D6 (log 1 to 6). Further: ROM at and past the image's length reads zero and drops
writes by D7 (log 7), the memory form is the model's (log 19), the operations as data are the model's (log 20). -/
def Obligations.ResetLeavesTheBootState : Prop :=
  ∀ s : State, ∃ t, CoreOp.reset.apply s = (t, .done) ∧
    t.readReg 1 = 0#32 ∧ t.flag .z = true ∧ t.flag .c = true ∧
    t.flag .n = false ∧ t.flag .v = false ∧ t.mode = 0b10000#5 ∧ t.cpsr = 0x60000010#32 ∧
    t.pc = 0x08000000#32 ∧ t.readReg 13 = 0x03007F00#32 ∧
    (∀ i, i ≠ 13 → i ≠ 15 → t.readReg i = 0#32) ∧
    (∀ k : Fin 6, t.saved[k] = 0#32) ∧ t.romLen = 0 ∧ (∀ k, t.vram.read k = 0#8) ∧ (∀ a, t.readByte a = 0#8)

/-- An operand read of r15 gives A + 8 and of any other register its slot, and so MOV from r15 leaves A + 8 in its
destination (10 section 2; the spec's decision D9, log 9). That LSL #0 is no shift is D11 (log 11). Further: address
and program counter sums wrap at 2^32 by D8 (log 8), a write to r15 as it is, also with S = 1, is D10 (log 10), no
advance follows a write to r15 by 90_conflicts.md C3 (log 10). -/
def Obligations.OperandReadOfPcSeesThePrefetchOffset : Prop :=
  (∀ (s : State) (i : Reg), s.operandReg i = if i = 15 then s.pc + 8#32 else s.readReg i) ∧
  (∀ (s : State) (c : Cond) (sf : Bool) (rd : Reg), condPass c s.nzcv = true →
    ∃ t, exec (.movReg c sf rd (.lsl 0) 15) s = .next t ∧ t.readReg rd = s.pc + 8#32)

/-! ### Memory -/

/-- 20 R52: the region of every address, and its offset there. -/
def Obligations.RegionLookupFollowsTheTable : Prop :=
  ∀ a : Word,
    (region a = .ewram ↔ 0x02000000 ≤ a.toNat ∧ a.toNat ≤ 0x0203FFFF) ∧
    (region a = .iwram ↔ 0x03000000 ≤ a.toNat ∧ a.toNat ≤ 0x03007FFF) ∧
    (region a = .rom ↔ 0x08000000 ≤ a.toNat ∧ a.toNat ≤ 0x0DFFFFFF) ∧
    (region a = .ewram → regionOffset a = a.toNat - 0x02000000) ∧
    (region a = .iwram → regionOffset a = a.toNat - 0x03000000) ∧
    (region a = .rom → regionOffset a = a.toNat - 0x08000000)

/-- 20 R53: in the two RAM regions a byte read gives the backing byte at the region offset, a byte, and a word whose
four bytes lie in one of them, is read back as written; no other byte and nothing else changes. The limit of the word
clause to words inside the region is the spec's reading of the source's sentence (95_test_vectors.md W8, 20_memory.md
R62), and the key of a byte and the canonical form are the model's (log 19). -/
def Obligations.RamReadsBackWhatWasWritten : Prop :=
  ∀ s : State, s.mem.wf = true → ∀ a : Word, region a = .ewram ∨ region a = .iwram →
    s.readByte a = s.mem.read ((region a).base + regionOffset a) ∧
    (∀ v : Byte, (s.writeByte a v).readByte a = v ∧ (∀ x, x ≠ a → (s.writeByte a v).readByte x = s.readByte x) ∧
      (s.writeByte a v).regs = s.regs ∧ (s.writeByte a v).cpsr = s.cpsr ∧ (s.writeByte a v).saved = s.saved ∧
      (s.writeByte a v).vram = s.vram ∧ (s.writeByte a v).romLen = s.romLen) ∧
    (∀ v : Word, region (a + 3#32) = region a → (s.writeWord a v).readWord a = v)

/-- 20 R55: the Unmapped addresses, and that one reads zero, also after a write to it, and the write changes no
state. -/
def Obligations.UnmappedReadsZeroAndDropsWrites : Prop :=
  ∀ (s : State) (a : Word) (v : Byte),
    (region a = .unmapped ↔ a.toNat < 0x02000000 ∨ (0x02040000 ≤ a.toNat ∧ a.toNat ≤ 0x02FFFFFF) ∨
      (0x03008000 ≤ a.toNat ∧ a.toNat ≤ 0x07FFFFFF) ∨ 0x0E000000 ≤ a.toNat) ∧
    (region a = .unmapped → s.readByte a = 0#8 ∧ s.writeByte a v = s ∧ (s.writeByte a v).readByte a = 0#8)

/-- The ROM window has exactly the image behind it (20 section 2): below ROM_LEN a byte is read back as written, at
and beyond ROM_LEN reads give zero, writes are discarded and the image does not grow (the spec's decision D7, log 7).
The canonical form is the model's (log 19). -/
def Obligations.RomWindowBacksExactlyTheImage : Prop :=
  ∀ s : State, s.mem.wf = true → ∀ (a : Word) (v : Byte), region a = .rom →
    (regionOffset a < s.romLen → (s.writeByte a v).readByte a = v ∧
      ∀ x, x ≠ a → (s.writeByte a v).readByte x = s.readByte x) ∧
    (s.romLen ≤ regionOffset a → s.readByte a = 0#8 ∧ s.writeByte a v = s) ∧
    (s.writeByte a v).romLen = s.romLen

/-- A word read is the OR of four routed byte reads at a, a+1, a+2, a+3, the first the least significant, whatever the
alignment (20 section 2; the wrap at 2^32 is the spec's decision D8, log 8). -/
def Obligations.WordReadIsFourRoutedByteReads : Prop :=
  ∀ (s : State) (a : Word),
    s.readWord a = (s.readByte a).setWidth 32 ||| ((s.readByte (a + 1#32)).setWidth 32 <<< 8) |||
      ((s.readByte (a + 2#32)).setWidth 32 <<< 16) ||| ((s.readByte (a + 3#32)).setWidth 32 <<< 24)

/-- A word write is four routed byte writes, little-endian: each of the four addresses that has backing holds its byte
of the word afterwards, no other byte and nothing else changes (20 section 2; the wrap at 2^32 is D8, log 8). That ROM
at or past the image's length has no backing, reads zero and drops the write is D7 (log 7), and the canonical form is
the model's (log 19). -/
def Obligations.WordWriteIsFourRoutedByteWrites : Prop :=
  ∀ s : State, s.mem.wf = true → ∀ a v : Word,
    (∀ x : Word, (s.writeWord a v).readByte x =
      if s.backed x = false then 0#8
      else if x = a then v.extractLsb' 0 8
      else if x = a + 1#32 then v.extractLsb' 8 8
      else if x = a + 2#32 then v.extractLsb' 16 8
      else if x = a + 3#32 then v.extractLsb' 24 8
      else s.readByte x) ∧
    (s.writeWord a v).regs = s.regs ∧ (s.writeWord a v).cpsr = s.cpsr ∧ (s.writeWord a v).romLen = s.romLen ∧
    (s.writeWord a v).saved = s.saved ∧ (s.writeWord a v).vram = s.vram

/-- 20 R67: after load_image ROM_LEN is the length of the bytes, ROM[i] is bytes[i] for every i below it, nothing of
the previous image survives, and no other state is touched. That a ROM address at or past the length reads zero is the
spec's decision D7 (log 7); that ROM[i] is held at key ROM_BASE + i is the model's form (log 19). Further: a load at
any time is D21 (log 20). -/
def Obligations.LoadImageReplacesTheRomRegion : Prop :=
  ∀ (s : State) (image : List Byte),
    (s.loadImage image).romLen = image.length ∧
    (∀ i, (s.loadImage image).mem.read (Config.romBase + i) = image.getD i 0#8) ∧
    (∀ a : Word, region a = .rom → (s.loadImage image).readByte a = image.getD (regionOffset a) 0#8) ∧
    (∀ a : Word, region a ≠ .rom → (s.loadImage image).readByte a = s.readByte a) ∧
    (s.loadImage image).regs = s.regs ∧ (s.loadImage image).cpsr = s.cpsr ∧
    (s.loadImage image).saved = s.saved ∧ (s.loadImage image).vram = s.vram

/-- A word written where the program counter points is the next word fetched and the next instruction run: there is no
stale copy (20 section 4, a derivation of the spec). That the host writes between steps is the spec's decision D20
(log 20), the wrap of an address D8 (log 8), the canonical form the model's (log 19). Further: that exec tests the
condition too is the model's form (log 23). -/
def Obligations.WrittenCodeIsTheNextFetch : Prop :=
  ∀ (s : State) (v : Word), s.mem.wf = true → s.wordBacked s.pc = true →
    (s.writeWord s.pc v).fetch = v ∧
    ∀ i, decode v = .ok i → step (s.writeWord s.pc v) = exec i (s.writeWord s.pc v)

/-- `withFetchWord` makes a word the next one fetched, in every state with memory in canonical form (the model's own
operation, log 21). The canonical form is the model's (log 19). -/
def Obligations.PlacedWordIsTheNextFetch : Prop :=
  ∀ (s : State) (w : Word), s.mem.wf = true →
    (s.withFetchWord 32 w.toNat).fetch = w ∧ (s.withFetchWord 32 w.toNat).cpsr = s.cpsr ∧
    ∀ i, i ≠ 15 → (s.withFetchWord 32 w.toNat).readReg i = s.readReg i

/-- After reset and the load of an image the first fetch is the image's first four bytes, little-endian (70 section 1;
PC_RESET is the spec's decision D1, log 2). Further: the operations as data are the model's (log 20). -/
def Obligations.FirstFetchIsTheImageStart : Prop :=
  ∀ b0 b1 b2 b3 : Byte, ∀ rest : List Byte,
    (applyAll [.reset, .loadImage (some (b0 :: b1 :: b2 :: b3 :: rest))] State.reset).fetch = b3 ++ b2 ++ b1 ++ b0

/-- With no image the first step after reset raises Unimplemented(OPCODE, 0, 0x08000000) (30 section 6, a derivation
of the spec from its decisions D1, D4, D6). The symbol OPCODE is D22 (log 16). Further: the reset value of r15 is D1
(log 2), the mode and bits 27 to 5 after reset are D4 (log 3), the memories after reset are D6 (log 5, 6), ROM at and
past the image's length reads zero and drops writes by D7 (log 7). -/
def Obligations.EmptyMachineFaultsAtTheBootAddress : Prop :=
  step State.reset = .fault (.unimplemented .opcode 0#32 0x08000000#32)

/-! ### Condition, skip and decode in the step -/

/-- 40 R113: the sixteen rows of the condition table by number, and the pairing law. The LE row, Z = 1 or N ≠ V, is
the spec's correction of the source's printed row (90_conflicts.md C5; log 18). -/
def Obligations.ConditionTableHolds : Prop :=
  ∀ n z c v : Bool,
    (condPass (Cond.ofBits 0b0000#4) ⟨n, z, c, v⟩ = true ↔ z = true) ∧
    (condPass (Cond.ofBits 0b0001#4) ⟨n, z, c, v⟩ = true ↔ z = false) ∧
    (condPass (Cond.ofBits 0b0010#4) ⟨n, z, c, v⟩ = true ↔ c = true) ∧
    (condPass (Cond.ofBits 0b0011#4) ⟨n, z, c, v⟩ = true ↔ c = false) ∧
    (condPass (Cond.ofBits 0b0100#4) ⟨n, z, c, v⟩ = true ↔ n = true) ∧
    (condPass (Cond.ofBits 0b0101#4) ⟨n, z, c, v⟩ = true ↔ n = false) ∧
    (condPass (Cond.ofBits 0b0110#4) ⟨n, z, c, v⟩ = true ↔ v = true) ∧
    (condPass (Cond.ofBits 0b0111#4) ⟨n, z, c, v⟩ = true ↔ v = false) ∧
    (condPass (Cond.ofBits 0b1000#4) ⟨n, z, c, v⟩ = true ↔ c = true ∧ z = false) ∧
    (condPass (Cond.ofBits 0b1001#4) ⟨n, z, c, v⟩ = true ↔ c = false ∨ z = true) ∧
    (condPass (Cond.ofBits 0b1010#4) ⟨n, z, c, v⟩ = true ↔ n = v) ∧
    (condPass (Cond.ofBits 0b1011#4) ⟨n, z, c, v⟩ = true ↔ n ≠ v) ∧
    (condPass (Cond.ofBits 0b1100#4) ⟨n, z, c, v⟩ = true ↔ z = false ∧ n = v) ∧
    (condPass (Cond.ofBits 0b1101#4) ⟨n, z, c, v⟩ = true ↔ z = true ∨ n ≠ v) ∧
    condPass (Cond.ofBits 0b1110#4) ⟨n, z, c, v⟩ = true ∧
    condPass (Cond.ofBits 0b1111#4) ⟨n, z, c, v⟩ = false ∧
    ∀ k : Nat, k < 8 → condPass (Cond.ofBits (BitVec.ofNat 4 (2 * k + 1))) ⟨n, z, c, v⟩ =
      !condPass (Cond.ofBits (BitVec.ofNat 4 (2 * k))) ⟨n, z, c, v⟩

/-- 40 R114: when the condition of the fetched word fails, whatever the word is, the step goes on and only the program
counter changes, by 4. That no fault is raised whatever the word is rests on the spec's decision D16 (log 16), and the
wrap of A + 4 on D8 (log 8). The same of an instruction given to exec, which is the model's form (log 23). -/
def Obligations.FailedConditionSkips : Prop :=
  (∀ s : State, condPass (Cond.ofBits (s.fetch.extractLsb' 28 4)) s.nzcv = false →
    ∃ t, step s = .next t ∧ Skipped s t) ∧
  (∀ (i : Instr) (s : State), condPass i.cond s.nzcv = false → ∃ t, exec i s = .next t ∧ Skipped s t)

/-- A word with condition field 1111 is skipped in every state, whatever its bits 27:0 (30 section 4, a derivation of
the spec). That no fault is raised is the spec's decision D16 (log 16), the wrap of A + 4 is D8 (log 8). -/
def Obligations.NeverConditionSkipsEveryWord : Prop :=
  ∀ s : State, s.fetch.extractLsb' 28 4 = 0b1111#4 → ∃ t, step s = .next t ∧ Skipped s t

/-- 40 R115: the class of a word whose condition passes routes it. Class 000 or 001 goes to the Data-Processing
Executor, class 101 to the Branch Executor (both as WordStep.lean writes them), and any other class raises
Unimplemented(CLASS, W, A). The executors hold the spec's decisions D8 to D13 (log 8 to 13), and the order of the
tests is D16 (log 16). The symbols of the reasons are D22 (log 16). Further: S and rd of CMP and rn of MOV accept
every value by D17 (log 17), no advance follows a write to r15 by 90_conflicts.md C3 (log 10). -/
def Obligations.ClassRoutesTheWord : Prop :=
  ∀ s : State, s.passes = true →
    (s.fetch.extractLsb' 25 3 ∈ [0b010#3, 0b011#3, 0b100#3, 0b110#3, 0b111#3] →
      step s = .fault (.unimplemented .cls s.fetch s.pc)) ∧
    (s.fetch.extractLsb' 25 3 ∈ [0b000#3, 0b001#3] → step s = wordDp s.fetch s) ∧
    (s.fetch.extractLsb' 25 3 = 0b101#3 → step s = wordBranch s.fetch s)

/-- 42 R161: a class 000 or 001 word with one of the ten unsupported opcodes raises Unimplemented(OPCODE, W, A) when
its condition passes, whatever its other bits (the shift form too: the order of the tests is the spec's decision D16,
log 16), and the step operation leaves the state as it was (D15, log 15). The symbol OPCODE is D22 (log 16). Further:
the operations as data are the model's (log 20). -/
def Obligations.UnsupportedOpcodeFaults : Prop :=
  ∀ s : State, s.passes = true → s.fetch.extractLsb' 25 3 ∈ [0b000#3, 0b001#3] →
    s.fetch.extractLsb' 21 4 ∈
      [0b0000#4, 0b0001#4, 0b0011#4, 0b0111#4, 0b1000#4, 0b1001#4, 0b1011#4, 0b1100#4, 0b1110#4, 0b1111#4] →
    step s = .fault (.unimplemented .opcode s.fetch s.pc) ∧
      CoreOp.step.apply s = (s, .fault (.unimplemented .opcode s.fetch s.pc))

/-- A class 000 word with a supported opcode and bit 4 = 1 raises Unimplemented(SHIFT_FORM, W, A) when its condition
passes (the spec's decision D12, log 12). The order of the tests and the symbol are D16 and D22 (log 16). -/
def Obligations.ShiftByRegisterFaults : Prop :=
  ∀ s : State, s.passes = true → s.fetch.extractLsb' 25 3 = 0b000#3 → s.fetch.getLsbD 4 = true →
    s.fetch.extractLsb' 21 4 ∈ [0b0010#4, 0b0100#4, 0b0101#4, 0b0110#4, 0b1010#4, 0b1101#4] →
    step s = .fault (.unimplemented .shiftForm s.fetch s.pc)

/-- 30 R90: every word is skipped, executes, or raises the fault, by its condition and the match and mask rows alone;
exactly one of the three. The rows are the spec's derivation (30 section 3) and their bit 4 its decision D12 (log 12);
that a failed condition hides the fault is D16 (log 16). Further: address and program counter sums wrap at 2^32 by D8
(log 8), S and rd of CMP and rn of MOV accept every value by D17 (log 17), that exec tests the condition too is the
model's form (log 23). -/
def Obligations.EveryWordSkipsExecutesOrFaults : Prop :=
  ∀ s : State,
    (s.passes = false → ∃ t, step s = .next t ∧ Skipped s t) ∧
    (s.passes = true → (∃ row ∈ opcodeRows, s.fetch &&& row.1 = row.2) →
      ∃ i t, decode s.fetch = .ok i ∧ step s = exec i s ∧ step s = .next t) ∧
    (s.passes = true → (∀ row ∈ opcodeRows, s.fetch &&& row.1 ≠ row.2) →
      ∃ reason, step s = .fault (.unimplemented reason s.fetch s.pc))

/-- A faulting step leaves every piece of state as it was, and a further step raises the same fault (60 section 1; the
spec's decision D15, log 15). Further: the operations as data are the model's (log 20). -/
def Obligations.FaultChangesNothingAndRecurs : Prop :=
  ∀ (s : State) (f : Fault), step s = .fault f →
    (CoreOp.step.apply s).1 = s ∧ (CoreOp.step.apply s).2 = .fault f ∧
    CoreOp.step.apply (CoreOp.step.apply s).1 = (s, .fault f)

/-- A step runs the decoded instruction: when the word at the program counter is an instruction, the step is that
instruction's execution, its condition included (40 R119). That exec tests the condition too is the model's form (log
23). Further: the spelling of a shift is the model's (log 24). -/
def Obligations.StepRunsTheDecodedInstruction : Prop :=
  ∀ (s : State) (i : Instr), decode (s.readWord (s.readReg 15)) = .ok i → i.wf = true ∧ step s = exec i s

/-- The step is the algorithm of 40 section 3, over the bits of the fetched word, with DP and Branch as the spec's
pseudocode writes them; among its clauses the spec's decisions D8 to D13 (log 8 to 13) and D16 (log 16). The symbols
of the reasons are D22 (log 16). Further: S and rd of CMP and rn of MOV accept every value by D17 (log 17), no advance
follows a write to r15 by 90_conflicts.md C3 (log 10). -/
def Obligations.StepIsTheWordAlgorithm : Prop :=
  ∀ s : State, step s = wordStep s

/-! ### Adder and operand 2 -/

/-- 42 R150: the adder's result, carry and overflow against the exact sums, and subtraction as the sum with the
complement. -/
def Obligations.AdderIsExactThenNarrowed : Prop :=
  (∀ (a b : Word) (cin : Bool),
    (addWithCarry a b cin).result.toNat + 2 ^ 32 * (addWithCarry a b cin).carry.toNat = a.toNat + b.toNat + cin.toNat ∧
    ((addWithCarry a b cin).overflow = false ↔
      (addWithCarry a b cin).result.toInt = a.toInt + b.toInt + (cin.toNat : Int))) ∧
  (∀ a b : Word, (addWithCarry a (~~~b) true).result = a - b ∧
    ((addWithCarry a (~~~b) true).carry = true ↔ b.toNat ≤ a.toNat)) ∧
  (∀ (a b : Word) (c : Bool), (addWithCarry a (~~~b) c).result = a - b - (if c then 0#32 else 1#32) ∧
    ((addWithCarry a (~~~b) c).carry = true ↔ b.toNat + (if c then 0 else 1) ≤ a.toNat))

/-- The overflow of the adder is the source's sign test, subtractive and additive, with either carry-in (42 section 1;
the additive formula is the spec's decision D14, log 14). -/
def Obligations.OverflowIsTheSignTest : Prop :=
  ∀ (a b : Word) (cin : Bool),
    (addWithCarry a (~~~b) cin).overflow = ((a ^^^ b) &&& (a ^^^ (addWithCarry a (~~~b) cin).result)).getLsbD 31 ∧
    (addWithCarry a b cin).overflow = (~~~(a ^^^ b) &&& (a ^^^ (addWithCarry a b cin).result)).getLsbD 31

/-- The immediate operand: bit i is bit (i + 2 rotate) mod 32 of the zero-extended byte, and the carry-out is C when
rotate is 0, else bit 31 of the operand (41 section on the immediate form; the carry-out is the spec's decision D13,
log 13). -/
def Obligations.ImmediateOperandRotatesRight : Prop :=
  ∀ (s : State) (rotate : BitVec 4) (imm8 : BitVec 8),
    (∀ i, i < 32 → (s.operand2 (.imm rotate imm8)).1.getLsbD i = imm8.getLsbD ((i + 2 * rotate.toNat) % 32)) ∧
    (s.operand2 (.imm rotate imm8)).2 =
      (if rotate = 0#4 then s.flag .c else (s.operand2 (.imm rotate imm8)).1.getLsbD 31)

/-- LSL, LSR and ASR by the amount field, where 0 means no shift for LSL and 32 for LSR and ASR: the value bit by bit,
ASR as division rounding down, and the carry-out (the spec's decision D11, log 11). The carry input is 90_conflicts.md
C8. -/
def Obligations.ShifterShiftsAsEncoded : Prop :=
  ∀ (v : Word) (amt5 : BitVec 5) (cin : Bool),
    (amt5 = 0#5 → barrelShift v .lsl amt5 cin = (v, cin) ∧ barrelShift v .lsr amt5 cin = (0#32, v.getLsbD 31) ∧
      barrelShift v .asr amt5 cin = ((if v.getLsbD 31 then 0xFFFFFFFF#32 else 0#32), v.getLsbD 31)) ∧
    (amt5 ≠ 0#5 →
      (∀ i, i < 32 → (barrelShift v .lsl amt5 cin).1.getLsbD i =
        (decide (amt5.toNat ≤ i) && v.getLsbD (i - amt5.toNat))) ∧
      (barrelShift v .lsl amt5 cin).2 = v.getLsbD (32 - amt5.toNat) ∧
      (barrelShift v .lsr amt5 cin).1.toNat = v.toNat / 2 ^ amt5.toNat ∧
      (barrelShift v .lsr amt5 cin).2 = v.getLsbD (amt5.toNat - 1) ∧
      (barrelShift v .asr amt5 cin).1.toInt = Int.fdiv v.toInt (2 ^ amt5.toNat) ∧
      (barrelShift v .asr amt5 cin).2 = v.getLsbD (amt5.toNat - 1))

/-- ROR by 1 to 31, and RRX where the amount is 0: the carry flag enters at bit 31 (the spec's decision D11, log 11).
The carry input is 90_conflicts.md C8. -/
def Obligations.ShifterRotatesAsEncoded : Prop :=
  ∀ (v : Word) (amt5 : BitVec 5) (cin : Bool),
    (amt5 = 0#5 →
      (∀ i, i < 32 → (barrelShift v .ror amt5 cin).1.getLsbD i = (if i = 31 then cin else v.getLsbD (i + 1))) ∧
      (barrelShift v .ror amt5 cin).2 = v.getLsbD 0) ∧
    (amt5 ≠ 0#5 →
      (∀ i, i < 32 → (barrelShift v .ror amt5 cin).1.getLsbD i = v.getLsbD ((i + amt5.toNat) % 32)) ∧
      (barrelShift v .ror amt5 cin).2 = v.getLsbD (amt5.toNat - 1) ∧
      (barrelShift v .ror amt5 cin).2 = (barrelShift v .ror amt5 cin).1.getLsbD 31)

/-! ### The instructions -/

/-- SUB (42 section 3): the encodings, the SHIFT_FORM exception (the spec's decision D12, log 12), and, when the
condition passes, the completion with result rn - operand 2 in rd (the program counter when rd is 15), N, Z, C, V as
the subtraction sets them when S = 1, and nothing else changed. `operandReg` and `operand2` are read before the write.
That with rd = 15 the result is the program counter as it is, with no advance, and that S = 1 then updates the flags
like any other, is 90_conflicts.md C3 and the spec's decision D10 (log 10); the wrap of A + 4 at 2^32 is D8 (log 8).
`operandReg` and `operand2` hold the spec's decisions D9, D11 and D13 (log 9, 11, 13), and count an ill-formed shift
amount modulo 32 (log 24); the symbol SHIFT_FORM is D22 (log 16). -/
def Obligations.SubFollowsItsRule : Prop :=
  DecodesAs 0x0FE00000#32 0x02400000#32 (fun w => .subImm (condField w) (w.getLsbD 20) (regField w 16) (regField w 12)
    (field w 8 4) (field w 0 8)) ∧
  DecodesAs 0x0FE00010#32 0x00400000#32 (fun w => .subReg (condField w) (w.getLsbD 20) (regField w 16) (regField w 12)
    (shiftField w) (regField w 0)) ∧
  RaisesOn 0x0FE00010#32 0x00400010#32 .shiftForm ∧
  ∀ (s : State) (c : Cond) (sf : Bool) (rn rd : Reg), condPass c s.nzcv = true →
    let effect := fun (b : Word) (t : State) =>
      WroteResult s t sf rd (s.operandReg rn - b)
        ⟨(s.operandReg rn - b).getLsbD 31, decide (s.operandReg rn - b = 0#32),
          decide (b.toNat ≤ (s.operandReg rn).toNat),
          decide ((s.operandReg rn - b).toInt ≠ (s.operandReg rn).toInt - b.toInt)⟩
    (∀ rotate imm8, ∃ t, exec (.subImm c sf rn rd rotate imm8) s = .next t ∧
      effect (s.operand2 (.imm rotate imm8)).1 t) ∧
    (∀ shift rm, ∃ t, exec (.subReg c sf rn rd shift rm) s = .next t ∧ effect (s.operand2 (.reg shift rm)).1 t)

/-- ADD (42 section 3; SHIFT_FORM is D12, log 12): as SUB, with the sum; C is the carry out of 32 bits, V the signed
overflow. That with rd = 15 the result is the program counter as it is, with no advance, and that S = 1 then updates
the flags like any other, is 90_conflicts.md C3 and the spec's decision D10 (log 10); the wrap of A + 4 at 2^32 is D8
(log 8). `operandReg` and `operand2` hold the spec's decisions D9, D11 and D13 (log 9, 11, 13), and count an
ill-formed shift amount modulo 32 (log 24); the symbol SHIFT_FORM is D22 (log 16). -/
def Obligations.AddFollowsItsRule : Prop :=
  DecodesAs 0x0FE00000#32 0x02800000#32 (fun w => .addImm (condField w) (w.getLsbD 20) (regField w 16) (regField w 12)
    (field w 8 4) (field w 0 8)) ∧
  DecodesAs 0x0FE00010#32 0x00800000#32 (fun w => .addReg (condField w) (w.getLsbD 20) (regField w 16) (regField w 12)
    (shiftField w) (regField w 0)) ∧
  RaisesOn 0x0FE00010#32 0x00800010#32 .shiftForm ∧
  ∀ (s : State) (c : Cond) (sf : Bool) (rn rd : Reg), condPass c s.nzcv = true →
    let effect := fun (b : Word) (t : State) =>
      WroteResult s t sf rd (s.operandReg rn + b)
        ⟨(s.operandReg rn + b).getLsbD 31, decide (s.operandReg rn + b = 0#32),
          decide (2 ^ 32 ≤ (s.operandReg rn).toNat + b.toNat),
          decide ((s.operandReg rn + b).toInt ≠ (s.operandReg rn).toInt + b.toInt)⟩
    (∀ rotate imm8, ∃ t, exec (.addImm c sf rn rd rotate imm8) s = .next t ∧
      effect (s.operand2 (.imm rotate imm8)).1 t) ∧
    (∀ shift rm, ∃ t, exec (.addReg c sf rn rd shift rm) s = .next t ∧ effect (s.operand2 (.reg shift rm)).1 t)

/-- ADC (42 section 3; SHIFT_FORM is D12, log 12; the flag and not the shifter carry is added: D13, log 13): as ADD,
with the carry flag as it stands before the instruction added. That with rd = 15 the result is the program counter as
it is, with no advance, and that S = 1 then updates the flags like any other, is 90_conflicts.md C3 and the spec's
decision D10 (log 10); the wrap of A + 4 at 2^32 is D8 (log 8). `operandReg` and `operand2` hold the spec's decisions
D9, D11 and D13 (log 9, 11, 13), and count an ill-formed shift amount modulo 32 (log 24); the symbol SHIFT_FORM is D22
(log 16). -/
def Obligations.AdcFollowsItsRule : Prop :=
  DecodesAs 0x0FE00000#32 0x02A00000#32 (fun w => .adcImm (condField w) (w.getLsbD 20) (regField w 16) (regField w 12)
    (field w 8 4) (field w 0 8)) ∧
  DecodesAs 0x0FE00010#32 0x00A00000#32 (fun w => .adcReg (condField w) (w.getLsbD 20) (regField w 16) (regField w 12)
    (shiftField w) (regField w 0)) ∧
  RaisesOn 0x0FE00010#32 0x00A00010#32 .shiftForm ∧
  ∀ (s : State) (c : Cond) (sf : Bool) (rn rd : Reg), condPass c s.nzcv = true →
    let cin := BitVec.ofNat 32 (s.flag .c).toNat
    let effect := fun (b : Word) (t : State) =>
      WroteResult s t sf rd (s.operandReg rn + b + cin)
        ⟨(s.operandReg rn + b + cin).getLsbD 31, decide (s.operandReg rn + b + cin = 0#32),
          decide (2 ^ 32 ≤ (s.operandReg rn).toNat + b.toNat + (s.flag .c).toNat),
          decide ((s.operandReg rn + b + cin).toInt ≠ (s.operandReg rn).toInt + b.toInt + ((s.flag .c).toNat : Int))⟩
    (∀ rotate imm8, ∃ t, exec (.adcImm c sf rn rd rotate imm8) s = .next t ∧
      effect (s.operand2 (.imm rotate imm8)).1 t) ∧
    (∀ shift rm, ∃ t, exec (.adcReg c sf rn rd shift rm) s = .next t ∧ effect (s.operand2 (.reg shift rm)).1 t)

/-- SBC (42 section 3; SHIFT_FORM is D12, log 12): rn - operand 2 - (1 - C); C afterwards means no borrow out of the
whole subtraction, the incoming borrow included (90_conflicts.md C4). That with rd = 15 the result is the program
counter as it is, with no advance, and that S = 1 then updates the flags like any other, is 90_conflicts.md C3 and the
spec's decision D10 (log 10); the wrap of A + 4 at 2^32 is D8 (log 8). That the carry-in is the flag and never the
shifter carry-out is D13 (log 13). `operandReg` and `operand2` hold the spec's decisions D9, D11 and D13 (log 9, 11,
13), and count an ill-formed shift amount modulo 32 (log 24); the symbol SHIFT_FORM is D22 (log 16). -/
def Obligations.SbcFollowsItsRule : Prop :=
  DecodesAs 0x0FE00000#32 0x02C00000#32 (fun w => .sbcImm (condField w) (w.getLsbD 20) (regField w 16) (regField w 12)
    (field w 8 4) (field w 0 8)) ∧
  DecodesAs 0x0FE00010#32 0x00C00000#32 (fun w => .sbcReg (condField w) (w.getLsbD 20) (regField w 16) (regField w 12)
    (shiftField w) (regField w 0)) ∧
  RaisesOn 0x0FE00010#32 0x00C00010#32 .shiftForm ∧
  ∀ (s : State) (c : Cond) (sf : Bool) (rn rd : Reg), condPass c s.nzcv = true →
    let borrow : Nat := 1 - (s.flag .c).toNat
    let effect := fun (b : Word) (t : State) =>
      WroteResult s t sf rd (s.operandReg rn - b - BitVec.ofNat 32 borrow)
        ⟨(s.operandReg rn - b - BitVec.ofNat 32 borrow).getLsbD 31,
          decide (s.operandReg rn - b - BitVec.ofNat 32 borrow = 0#32),
          decide (b.toNat + borrow ≤ (s.operandReg rn).toNat),
          decide ((s.operandReg rn - b - BitVec.ofNat 32 borrow).toInt ≠
            (s.operandReg rn).toInt - b.toInt - (borrow : Int))⟩
    (∀ rotate imm8, ∃ t, exec (.sbcImm c sf rn rd rotate imm8) s = .next t ∧
      effect (s.operand2 (.imm rotate imm8)).1 t) ∧
    (∀ shift rm, ∃ t, exec (.sbcReg c sf rn rd shift rm) s = .next t ∧ effect (s.operand2 (.reg shift rm)).1 t)

/-- CMP (42 section 3): the encodings (S and rd are not read, the spec's decision D17, log 17), the SHIFT_FORM
exception (D12, log 12), and, when the condition passes, the completion: flags of rn - operand 2 always, C = rn ≥
operand 2 unsigned, V the source's sign test, no register written, the program counter at A + 4. The wrap of A + 4 at
2^32 is the spec's decision D8 (log 8). `operandReg` and `operand2` hold the spec's decisions D9, D11 and D13 (log 9,
11, 13), and count an ill-formed shift amount modulo 32 (log 24); the symbol SHIFT_FORM is D22 (log 16). -/
def Obligations.CmpFollowsItsRule : Prop :=
  DecodesAs 0x0FE00000#32 0x03400000#32 (fun w => .cmpImm (condField w) (regField w 16) (field w 8 4) (field w 0 8)) ∧
  DecodesAs 0x0FE00010#32 0x01400000#32 (fun w => .cmpReg (condField w) (regField w 16) (shiftField w) (regField w 0)) ∧
  RaisesOn 0x0FE00010#32 0x01400010#32 .shiftForm ∧
  ∀ (s : State) (c : Cond) (rn : Reg), condPass c s.nzcv = true →
    let effect := fun (b : Word) (t : State) =>
      Compared s t
        ⟨(s.operandReg rn - b).getLsbD 31, decide (s.operandReg rn = b), decide (b.toNat ≤ (s.operandReg rn).toNat),
          ((s.operandReg rn ^^^ b) &&& (s.operandReg rn ^^^ (s.operandReg rn - b))).getLsbD 31⟩
    (∀ rotate imm8, ∃ t, exec (.cmpImm c rn rotate imm8) s = .next t ∧ effect (s.operand2 (.imm rotate imm8)).1 t) ∧
    (∀ shift rm, ∃ t, exec (.cmpReg c rn shift rm) s = .next t ∧ effect (s.operand2 (.reg shift rm)).1 t)

/-- MOV: the encodings (rn is not read, the spec's decision D17, log 17), the SHIFT_FORM exception (D12, log 12), and,
when the condition passes, the completion with operand 2 in rd; with S = 1 N and Z from it, C the shifter carry-out
and V unchanged (42 section 3; C and V are the spec's decision D13, log 13). That with rd = 15 the result is the
program counter as it is, with no advance, and that S = 1 then updates the flags like any other, is 90_conflicts.md C3
and the spec's decision D10 (log 10); the wrap of A + 4 at 2^32 is D8 (log 8). `operandReg` and `operand2` hold the
spec's decisions D9, D11 and D13 (log 9, 11, 13), and count an ill-formed shift amount modulo 32 (log 24); the symbol
SHIFT_FORM is D22 (log 16). -/
def Obligations.MovFollowsItsRule : Prop :=
  DecodesAs 0x0FE00000#32 0x03A00000#32 (fun w => .movImm (condField w) (w.getLsbD 20) (regField w 12)
    (field w 8 4) (field w 0 8)) ∧
  DecodesAs 0x0FE00010#32 0x01A00000#32 (fun w => .movReg (condField w) (w.getLsbD 20) (regField w 12)
    (shiftField w) (regField w 0)) ∧
  RaisesOn 0x0FE00010#32 0x01A00010#32 .shiftForm ∧
  ∀ (s : State) (c : Cond) (sf : Bool) (rd : Reg), condPass c s.nzcv = true →
    let effect := fun (b : Word × Bool) (t : State) =>
      WroteResult s t sf rd b.1 ⟨b.1.getLsbD 31, decide (b.1 = 0#32), b.2, s.flag .v⟩
    (∀ rotate imm8, ∃ t, exec (.movImm c sf rd rotate imm8) s = .next t ∧ effect (s.operand2 (.imm rotate imm8)) t) ∧
    (∀ shift rm, ∃ t, exec (.movReg c sf rd shift rm) s = .next t ∧ effect (s.operand2 (.reg shift rm)) t)

/-- 43 R182, B: the encoding, and, when the condition passes, the completion at A + 8 + 4 times the signed offset,
with no register but r15, no flag and no byte changed. The wrap of the target at 2^32 is the spec's decision D8 (log
8). -/
def Obligations.BranchFollowsItsRule : Prop :=
  DecodesAs 0x0F000000#32 0x0A000000#32 (fun w => .b (condField w) (field w 0 24)) ∧
  ∀ (s : State) (c : Cond) (imm24 : BitVec 24), condPass c s.nzcv = true →
    ∃ t, exec (.b c imm24) s = .next t ∧ Branched s t false (s.pc + 8#32 + BitVec.ofInt 32 (4 * imm24.toInt))

/-- 43 R183, BL: as B, and r14 receives A + 4. The wrap of both sums at 2^32 is the spec's decision D8 (log 8). -/
def Obligations.BranchLinkFollowsItsRule : Prop :=
  DecodesAs 0x0F000000#32 0x0B000000#32 (fun w => .bl (condField w) (field w 0 24)) ∧
  ∀ (s : State) (c : Cond) (imm24 : BitVec 24), condPass c s.nzcv = true →
    ∃ t, exec (.bl c imm24) s = .next t ∧ Branched s t true (s.pc + 8#32 + BitVec.ofInt 32 (4 * imm24.toInt))

/-- The branch target is A + 8 + sext(imm24 : 00), and so a branch keeps the low two bits of the program counter (43
sections on target and alignment; the wrap at 2^32 is D8, log 8). -/
def Obligations.BranchKeepsTheAlignmentOfThePc : Prop :=
  ∀ (s : State) (c : Cond) (imm24 : BitVec 24), condPass c s.nzcv = true → ∀ i, i = .b c imm24 ∨ i = .bl c imm24 →
    ∃ t, exec i s = .next t ∧ t.pc = s.pc + 8#32 + (imm24 ++ 0b00#2).signExtend 32 ∧
      t.pc.extractLsb' 0 2 = s.pc.extractLsb' 0 2

/-- Call and return: after BL at A, MOV pc, lr in any later state that still holds the link value goes to A + 4
exactly, with no further advance (43, the return sequence, a derivation of the spec; 90_conflicts.md C3). That MOV to
r15 makes no further advance is also the spec's decision D10 (log 10), the wrap of A + 4 is D8 (log 8). Further: the
shifts are D11 (log 11). -/
def Obligations.LinkedCallReturnsAfterTheCall : Prop :=
  ∀ (s t u : State) (c d : Cond) (sf : Bool) (imm24 : BitVec 24), condPass c s.nzcv = true →
    exec (.bl c imm24) s = .next t → u.readReg 14 = t.readReg 14 → condPass d u.nzcv = true →
    ∃ r, exec (.movReg d sf 15 (.lsl 0) 14) u = .next r ∧ r.pc = s.pc + 4#32

/-- A branch to itself is an endless loop the machine allows: every number of steps goes on, in the same state (43
R182's corner case, 44 R200). Further: the host acts between steps by D20 (log 20). -/
def Obligations.BranchToItselfRunsForever : Prop :=
  ∀ s : State, s.fetch &&& 0x0FFFFFFF#32 = 0x0AFFFFFE#32 → s.passes = true →
    ∀ n : Nat, Host.Core.run Sys2Proof.core n s = .next s

/-- The laws of 42 section 4 (a derivation of the spec): SBC with C = 1 is SUB and ADC with C = 0 is ADD, in the whole
next state; CMP sets the flags SUB with S = 1 sets. That ADC and SBC take the flag and not the shifter carry-out is
the spec's decision D13 (log 13). Further: SBC is the adder's by 90_conflicts.md C4, that exec tests the condition too
is the model's form (log 23). -/
def Obligations.ArithmeticLawsRelateTheInstructions : Prop :=
  ∀ (s : State) (c : Cond) (sf : Bool) (rn rd rm : Reg) (rotate : BitVec 4) (imm8 : BitVec 8) (shift : Shift),
    (s.flag .c = true →
      exec (.sbcImm c sf rn rd rotate imm8) s = exec (.subImm c sf rn rd rotate imm8) s ∧
      exec (.sbcReg c sf rn rd shift rm) s = exec (.subReg c sf rn rd shift rm) s) ∧
    (s.flag .c = false →
      exec (.adcImm c sf rn rd rotate imm8) s = exec (.addImm c sf rn rd rotate imm8) s ∧
      exec (.adcReg c sf rn rd shift rm) s = exec (.addReg c sf rn rd shift rm) s) ∧
    (∃ t u, exec (.cmpImm c rn rotate imm8) s = .next t ∧ exec (.subImm c true rn rd rotate imm8) s = .next u ∧
      t.nzcv = u.nzcv) ∧
    (∃ t u, exec (.cmpReg c rn shift rm) s = .next t ∧ exec (.subReg c true rn rd shift rm) s = .next u ∧
      t.nzcv = u.nzcv)

/-! ### Whole-machine rules -/

/-- Every instruction completes, in every state and with every operand: none faults and none is refused (40 R118, 60
R215). That exec skips when the condition fails is the model's form (log 23), and so is a shift amount modulo 32 (log
24). -/
def Obligations.EveryInstructionCompletes : Prop :=
  ∀ (i : Instr) (s : State), ∃ t, exec i s = .next t

/-- The frame of every instruction (10 R28, R37; 20 R64): a register other than r15 changes only as the destination or
as the link register of BL; flags change only when the instruction sets them, and MOV never changes V; nothing inert
and no byte of memory changes. That no saved status is copied with rd = 15 and S = 1 is D10 (log 10). Further: shifter
carry-outs and MOV's flags are D13 (log 13), that exec tests the condition too is the model's form (log 23). -/
def Obligations.InstructionsChangeOnlyWhatTheyName : Prop :=
  ∀ (i : Instr) (s t : State), exec i s = .next t →
    (∀ r : Reg, r ≠ 15 → i.dest? ≠ some r → (r = 14 → i.pattern ≠ 0x0B000000#32) → t.readReg r = s.readReg r) ∧
    (i.setsFlags = false → t.nzcv = s.nzcv) ∧
    (i.pattern = 0x03A00000#32 ∨ i.pattern = 0x01A00000#32 → t.flag .v = s.flag .v) ∧
    SameInert s t

/-- Control leaves the sequence only by B, by BL, or by a data-processing instruction whose destination is r15, and
only when its condition passes (43 R186; 10 R25). The transfer through r15 is 90_conflicts.md C3 and the spec's
decision D10 (log 10), the wrap of A + 4 is D8 (log 8). -/
def Obligations.OnlyNamedInstructionsTransferControl : Prop :=
  ∀ s t : State, step s = .next t → t.pc = s.pc + 4#32 ∨
    (s.passes = true ∧ ∃ i, decode s.fetch = .ok i ∧
      (i.pattern = 0x0A000000#32 ∨ i.pattern = 0x0B000000#32 ∨ i.dest? = some 15))

/-- No step changes the status register below the flags, the saved-status slots, the video buffer, ROM_LEN or any byte
of memory (10 R37, a derivation of the spec; 20 R64). That no saved status is copied with rd = 15 and S = 1 is the
spec's decision D10 (log 10). -/
def Obligations.StepsNeverTouchMemoryOrMode : Prop :=
  ∀ s t : State, step s = .next t → SameInert s t

/-- The reads of the interface change no state and answer the raw slot, the flag and the routed bytes; a load from an
unreadable source is no transition (44 R192, R194, R195, R197). The operations as data are the model's form (log 20),
and a register index above 15 cannot be written (log 22). -/
def Obligations.InterfaceReadsChangeNothing : Prop :=
  ∀ (s : State) (i : Reg) (f : Flag) (a : Word),
    (CoreOp.readRegister i).apply s = (s, .word (s.readReg i)) ∧
    (CoreOp.readFlag f).apply s = (s, .bool (s.flag f)) ∧
    (CoreOp.readByte a).apply s = (s, .byte (s.readByte a)) ∧
    (CoreOp.readWord a).apply s = (s, .word (s.readWord a)) ∧
    ((CoreOp.loadImage none).apply s).1 = s

/-- The invariant holds at reset (10 R36): memory canonical and listing only bytes that exist, the mode, bits 27 to 5,
the saved slots and the video buffer at their reset values. The values are the spec's decisions D4 to D6 (log 3 to 6),
the memory form is the model's (log 19). -/
def Obligations.InvariantHoldsAtReset : Prop := State.reset.inv = true

/-- Every step keeps the invariant, from every state that meets it. The inert values are the spec's decisions D4 to D6
(log 3, 4, 6), that no saved status is copied is D10 (log 10), and the memory form is the model's (log 19). Further:
the memories after reset are D6 (log 5, 6). -/
def Obligations.StepKeepsTheInvariant : Prop :=
  ∀ s t : State, s.inv = true → step s = .next t → t.inv = true

/-- Every operation of the interface keeps the invariant: reset, load_image, step, the reads and the memory port. The
inert values are the spec's decisions D4 to D6 (log 3, 4, 6), the memory form the model's (log 19), the operations D20
and D21 (log 20). Further: the memories after reset are D6 (log 5, 6), ROM at and past the image's length reads zero
and drops writes by D7 (log 7), a write to r15 as it is, also with S = 1, is D10 (log 10), the state after a fault is
D15 (log 15). -/
def Obligations.OperationsKeepTheInvariant : Prop :=
  ∀ (op : CoreOp) (s : State), s.inv = true → (op.apply s).1.inv = true

/-- Every state that a sequence of operations reaches from reset meets the invariant; so its memory is canonical,
lists only bytes that exist, and equal memories are equal lists (log 19). The inert values are the spec's decisions D4
to D6 (log 3, 4, 6), the operations D20 and D21 (log 20). Further: the memories after reset are D6 (log 5, 6), ROM at
and past the image's length reads zero and drops writes by D7 (log 7), a write to r15 as it is, also with S = 1, is
D10 (log 10), the state after a fault is D15 (log 15). -/
def Obligations.ReachableStatesMeetTheInvariant : Prop :=
  (∀ ops : List CoreOp, (applyAll ops State.reset).inv = true) ∧
  (∀ s t : State, s.inv = true → t.inv = true → s.romLen = t.romLen →
    (∀ k, s.mem.read k = t.mem.read k) → s.mem = t.mem)
end

