-- ==== Sys2Proof/Laws/State.lean ====
section
/-!
SUPPORT. One lemma per field per update of `State`, and the register and flag laws (spec 10 R21, R28), so that no
later proof unfolds a record update.
-/

namespace Sys2Proof.Machine

/-! ### Address arithmetic -/

/-- With ADDR_WRAP at 2^32 an address sum is the sum of 32-bit words (decision D8). -/
@[simp] theorem addrAdd_eq (a offset : Word) : addrAdd a offset = a + offset := by
  apply BitVec.eq_of_toNat_eq
  simp [addrAdd, Config.addrWrap]

@[simp] theorem nextPc_eq (s : State) : s.nextPc = s.pc + 4#32 := addrAdd_eq _ _

/-! ### Fields after an update -/

@[simp] theorem writeReg_cpsr (s : State) (i : Reg) (v : Word) : (s.writeReg i v).cpsr = s.cpsr := rfl
@[simp] theorem writeReg_saved (s : State) (i : Reg) (v : Word) : (s.writeReg i v).saved = s.saved := rfl
@[simp] theorem writeReg_mem (s : State) (i : Reg) (v : Word) : (s.writeReg i v).mem = s.mem := rfl
@[simp] theorem writeReg_romLen (s : State) (i : Reg) (v : Word) : (s.writeReg i v).romLen = s.romLen := rfl
@[simp] theorem writeReg_vram (s : State) (i : Reg) (v : Word) : (s.writeReg i v).vram = s.vram := rfl

@[simp] theorem setPc_cpsr (s : State) (v : Word) : (s.setPc v).cpsr = s.cpsr := rfl
@[simp] theorem setPc_saved (s : State) (v : Word) : (s.setPc v).saved = s.saved := rfl
@[simp] theorem setPc_mem (s : State) (v : Word) : (s.setPc v).mem = s.mem := rfl
@[simp] theorem setPc_romLen (s : State) (v : Word) : (s.setPc v).romLen = s.romLen := rfl
@[simp] theorem setPc_vram (s : State) (v : Word) : (s.setPc v).vram = s.vram := rfl

@[simp] theorem setFlag_regs (s : State) (f : Flag) (b : Bool) : (s.setFlag f b).regs = s.regs := rfl
@[simp] theorem setFlag_cpsr (s : State) (f : Flag) (b : Bool) :
    (s.setFlag f b).cpsr = forceBit s.cpsr f.bit b := rfl
@[simp] theorem setFlag_saved (s : State) (f : Flag) (b : Bool) : (s.setFlag f b).saved = s.saved := rfl
@[simp] theorem setFlag_mem (s : State) (f : Flag) (b : Bool) : (s.setFlag f b).mem = s.mem := rfl
@[simp] theorem setFlag_romLen (s : State) (f : Flag) (b : Bool) : (s.setFlag f b).romLen = s.romLen := rfl
@[simp] theorem setFlag_vram (s : State) (f : Flag) (b : Bool) : (s.setFlag f b).vram = s.vram := rfl

@[simp] theorem setNzcv_regs (s : State) (f : Nzcv) : (s.setNzcv f).regs = s.regs := rfl
@[simp] theorem setNzcv_saved (s : State) (f : Nzcv) : (s.setNzcv f).saved = s.saved := rfl
@[simp] theorem setNzcv_mem (s : State) (f : Nzcv) : (s.setNzcv f).mem = s.mem := rfl
@[simp] theorem setNzcv_romLen (s : State) (f : Nzcv) : (s.setNzcv f).romLen = s.romLen := rfl
@[simp] theorem setNzcv_vram (s : State) (f : Nzcv) : (s.setNzcv f).vram = s.vram := rfl

@[simp] theorem loadImage_regs (s : State) (bs : List Byte) : (s.loadImage bs).regs = s.regs := rfl
@[simp] theorem loadImage_cpsr (s : State) (bs : List Byte) : (s.loadImage bs).cpsr = s.cpsr := rfl
@[simp] theorem loadImage_saved (s : State) (bs : List Byte) : (s.loadImage bs).saved = s.saved := rfl
@[simp] theorem loadImage_romLen (s : State) (bs : List Byte) : (s.loadImage bs).romLen = bs.length := rfl
@[simp] theorem loadImage_vram (s : State) (bs : List Byte) : (s.loadImage bs).vram = s.vram := rfl

/-! ### Registers -/

@[simp] theorem readReg_writeReg_same (s : State) (i : Reg) (v : Word) : (s.writeReg i v).readReg i = v := by
  simp [State.readReg, State.writeReg]

@[simp] theorem readReg_writeReg_ne (s : State) {i j : Reg} (v : Word) (h : j ≠ i) :
    (s.writeReg i v).readReg j = s.readReg j := by
  have h' : (i : Nat) ≠ (j : Nat) := fun e => h (Fin.ext e.symm)
  simp [State.readReg, State.writeReg, h']

@[simp] theorem pc_setPc (s : State) (v : Word) : (s.setPc v).pc = v := readReg_writeReg_same s 15 v

@[simp] theorem pc_writeReg_ne (s : State) {i : Reg} (v : Word) (h : i ≠ 15) : (s.writeReg i v).pc = s.pc :=
  readReg_writeReg_ne s v h.symm

@[simp] theorem readReg_setPc_ne (s : State) {i : Reg} (v : Word) (h : i ≠ 15) :
    (s.setPc v).readReg i = s.readReg i :=
  readReg_writeReg_ne s v h

@[simp] theorem readReg_setNzcv (s : State) (f : Nzcv) (i : Reg) : (s.setNzcv f).readReg i = s.readReg i := rfl

@[simp] theorem pc_setNzcv (s : State) (f : Nzcv) : (s.setNzcv f).pc = s.pc := rfl

/-! ### Flags -/

theorem getLsbD_forceBit (w : Word) {pos : Nat} (v : Bool) (hp : pos ≤ 31) (q : Nat) :
    (forceBit w pos v).getLsbD q = if q = pos then v else w.getLsbD q := by
  have h1 : (1#32 <<< pos).getLsbD q = decide (q = pos) := by
    simp only [BitVec.getLsbD_shiftLeft, BitVec.getLsbD_one]
    by_cases h : q = pos
    · subst h; simp; omega
    · simp [h]; omega
  cases v <;> by_cases hq : q = pos
  · subst hq; simp [forceBit, h1]
  · have : q < 32 ∨ 32 ≤ q := by omega
    rcases this with h | h
    · simp [forceBit, hq, h]; intro; omega
    · simp [forceBit, hq, BitVec.getLsbD_of_ge _ _ h]
  · subst hq; simp [forceBit, h1]
  · simp [forceBit, h1, hq]

theorem flag_bit_le (f : Flag) : f.bit ≤ 31 := by cases f <;> decide

theorem flag_bit_inj {f g : Flag} (h : f.bit = g.bit) : f = g := by
  cases f <;> cases g <;> first | rfl | exact absurd h (by decide)

/-- `set_flag` then `flag` (R28). -/
theorem flag_setFlag (s : State) (f g : Flag) (b : Bool) :
    (s.setFlag f b).flag g = if g = f then b else s.flag g := by
  by_cases h : g = f
  · subst h; simp [State.flag, getLsbD_forceBit _ _ (flag_bit_le g)]
  · have : g.bit ≠ f.bit := fun e => h (flag_bit_inj e)
    simp [State.flag, getLsbD_forceBit _ _ (flag_bit_le f), h, this]

/-- A flag write leaves bits 27 to 0 of the status register alone (R28, R30). -/
theorem setFlag_statusLow (s : State) (f : Flag) (b : Bool) :
    (s.setFlag f b).cpsr.extractLsb' 0 28 = s.cpsr.extractLsb' 0 28 := by
  apply BitVec.eq_of_getLsbD_eq
  intro i hi
  have : i ≠ f.bit := by cases f <;> simp [Flag.bit] <;> omega
  simp [BitVec.getLsbD_extractLsb', getLsbD_forceBit _ _ (flag_bit_le f), this]

@[simp] theorem nzcv_setNzcv (s : State) (f : Nzcv) : (s.setNzcv f).nzcv = f := by
  simp [State.nzcv, State.setNzcv, flag_setFlag]

@[simp] theorem setNzcv_statusLow (s : State) (f : Nzcv) :
    (s.setNzcv f).cpsr.extractLsb' 0 28 = s.cpsr.extractLsb' 0 28 := by
  simp only [State.setNzcv, setFlag_statusLow]

@[simp] theorem nzcv_writeReg (s : State) (i : Reg) (v : Word) : (s.writeReg i v).nzcv = s.nzcv := rfl
@[simp] theorem nzcv_setPc (s : State) (v : Word) : (s.setPc v).nzcv = s.nzcv := rfl

end Sys2Proof.Machine
end

