-- ==== Sys2Proof/Laws/Memory.lean ====
section
/-!
SUPPORT. The laws of the canonical cell list and of the memory-map router: read after write, what a write leaves alone,
and that every memory operation keeps the canonical form (spec 20 R53 to R60, R67).
-/

namespace Sys2Proof.Machine

/-! ### The cell list -/

theorem risingFrom_mono {lo lo' : Nat} (h : lo' ≤ lo) :
    ∀ {m : Memory}, m.risingFrom lo = true → m.risingFrom lo' = true
  | [], _ => rfl
  | (k, b) :: m, hm => by
    simp only [Memory.risingFrom, Bool.and_eq_true, decide_eq_true_eq] at hm ⊢
    exact ⟨⟨by omega, hm.1.2⟩, hm.2⟩

/-- A key below every listed key reads as unlisted. -/
theorem read_below {a : Nat} : ∀ {m : Memory} {lo : Nat}, m.risingFrom lo = true → a < lo → m.read a = unlistedByte
  | [], _, _, _ => rfl
  | (k, b) :: m, lo, hm, ha => by
    simp only [Memory.risingFrom, Bool.and_eq_true, decide_eq_true_eq] at hm
    have hk : k ≠ a := by omega
    simp only [Memory.read, hk, if_false]
    exact read_below hm.2 (by omega)

/-- Reading back the key just written. -/
theorem read_write_same (v : Byte) {a : Nat} :
    ∀ {m : Memory} {lo : Nat}, m.risingFrom lo = true → (m.write a v).read a = v
  | [], _, _ => by by_cases hv : v = unlistedByte <;> simp [Memory.write, Memory.read, hv]
  | (k, b) :: m, lo, hm => by
    have hm' := hm
    simp only [Memory.risingFrom, Bool.and_eq_true, decide_eq_true_eq] at hm
    simp only [Memory.write]
    split
    · rename_i hlt
      split
      · rename_i hv
        rw [hv]
        exact read_below (m := (k, b) :: m) (lo := k)
          (by simp [Memory.risingFrom, hm.2, hm.1.2]) hlt
      · simp [Memory.read]
    · split
      · rename_i hge heq
        split
        · rename_i hv
          rw [hv]
          exact read_below hm.2 (by omega)
        · simp [Memory.read]
      · rename_i hge hne
        have : k ≠ a := fun e => hne e.symm
        simp only [Memory.read, this, if_false]
        exact read_write_same v hm.2

/-- A write leaves every other key alone, in any list. -/
theorem read_write_ne (v : Byte) {a k' : Nat} (h : k' ≠ a) :
    ∀ (m : Memory), (m.write a v).read k' = m.read k'
  | [] => by
    by_cases hv : v = unlistedByte
    · simp [Memory.write, hv]
    · simp [Memory.write, Memory.read, hv, h.symm]
  | (k, b) :: m => by
    simp only [Memory.write]
    split
    · split
      · rfl
      · simp [Memory.read, h.symm]
    · split
      · rename_i heq
        subst heq
        split
        · simp [Memory.read, h.symm]
        · simp [Memory.read, h.symm]
      · simp only [Memory.read]
        split
        · rfl
        · exact read_write_ne v h m

/-- A write keeps the canonical form. -/
theorem risingFrom_write (v : Byte) {a : Nat} :
    ∀ {m : Memory} {lo : Nat}, m.risingFrom lo = true → lo ≤ a → (m.write a v).risingFrom lo = true
  | [], lo, _, ha => by
    by_cases hv : v = unlistedByte
    · simp [Memory.write, hv, Memory.risingFrom]
    · simp [Memory.write, hv, Memory.risingFrom, ha]
  | (k, b) :: m, lo, hm, ha => by
    have hm' := hm
    simp only [Memory.risingFrom, Bool.and_eq_true, decide_eq_true_eq] at hm
    simp only [Memory.write]
    split
    · rename_i hlt
      split
      · exact hm'
      · rename_i hv
        have hk : a + 1 ≤ k := by omega
        simp [Memory.risingFrom, ha, hv, hk, hm.2, hm.1.2]
    · split
      · rename_i hge heq
        subst heq
        split
        · exact risingFrom_mono (by omega) hm.2
        · rename_i hv
          simp [Memory.risingFrom, ha, hv, hm.2]
      · rename_i hge hne
        have := risingFrom_write v hm.2 (a := a) (by omega)
        simp only [Memory.risingFrom, Bool.and_eq_true, decide_eq_true_eq]
        exact ⟨hm.1, this⟩

/-- `Memory.write` keeps `Memory.wf`. -/
theorem wf_write {m : Memory} (h : m.wf = true) (a : Nat) (v : Byte) : (m.write a v).wf = true :=
  risingFrom_write v h (Nat.zero_le a)

/-- A cell of a written list was there before or has the written key. -/
theorem mem_write {a : Nat} {v : Byte} {cell : Host.Cell} :
    ∀ {m : Memory}, cell ∈ m.write a v → cell ∈ m ∨ cell.1 = a
  | [], h => by
    by_cases hv : v = unlistedByte
    · simp [Memory.write, hv] at h
    · simp [Memory.write, hv] at h; simp [h]
  | (k, b) :: m, h => by
    simp only [Memory.write] at h
    split at h
    · split at h
      · exact .inl h
      · rcases List.mem_cons.1 h with h | h
        · right; simp [h]
        · exact .inl h
    · split at h
      · split at h
        · exact .inl (List.mem_cons_of_mem _ h)
        · rcases List.mem_cons.1 h with h | h
          · right; simp [h]
          · exact .inl (List.mem_cons_of_mem _ h)
      · rcases List.mem_cons.1 h with h | h
        · left; simp [h]
        · rcases mem_write h with h | h
          · exact .inl (List.mem_cons_of_mem _ h)
          · exact .inr h

/-- The cells of a laid byte sequence are in canonical form. -/
theorem risingFrom_layFrom : ∀ (bs : List Byte) {lo a : Nat}, lo ≤ a → (Memory.layFrom a bs).risingFrom lo = true
  | [], _, _, _ => rfl
  | b :: bs, lo, a, h => by
    simp only [Memory.layFrom]
    split
    · exact risingFrom_layFrom bs (by omega)
    · rename_i hb
      have := risingFrom_layFrom bs (le_refl (a + 1))
      simp [Memory.risingFrom, h, hb, this]

/-- The byte at offset `i` of a laid sequence. -/
theorem read_layFrom : ∀ (bs : List Byte) (a i : Nat), (Memory.layFrom a bs).read (a + i) = bs.getD i unlistedByte
  | [], _, _ => by simp [Memory.layFrom, Memory.read]
  | b :: bs, a, 0 => by
    simp only [Memory.layFrom]
    split
    · rename_i hb
      simpa [hb] using read_below (risingFrom_layFrom bs (le_refl (a + 1))) (Nat.lt_succ_self a)
    · simp [Memory.read]
  | b :: bs, a, i + 1 => by
    have h := read_layFrom bs (a + 1) i
    have e : a + (i + 1) = a + 1 + i := by omega
    simp only [Memory.layFrom]
    split
    · rw [e, h]; simp
    · have : a ≠ a + 1 + i := by omega
      rw [e]; simp [Memory.read, this, h]

/-- The keys of a laid sequence. -/
theorem mem_layFrom {cell : Host.Cell} :
    ∀ {bs : List Byte} {a : Nat}, cell ∈ Memory.layFrom a bs → a ≤ cell.1 ∧ cell.1 < a + bs.length
  | [], _, h => by simp [Memory.layFrom] at h
  | b :: bs, a, h => by
    have step : cell ∈ Memory.layFrom (a + 1) bs → a ≤ cell.1 ∧ cell.1 < a + (b :: bs).length := fun h => by
      have := mem_layFrom h
      simp only [List.length_cons]; omega
    simp only [Memory.layFrom] at h
    split at h
    · exact step h
    · rcases List.mem_cons.1 h with h | h
      · simp [h]
      · exact step h

theorem read_append_left {m n : Memory} {a : Nat} (h : ∀ cell ∈ n, cell.1 ≠ a) :
    (m ++ n).read a = Memory.read m a := by
  induction m with
  | nil =>
    induction n with
    | nil => rfl
    | cons c n ih =>
      have hc := h c (by simp)
      simp only [List.nil_append] at ih ⊢
      simp only [Memory.read, hc, if_false]
      exact ih fun x hx => h x (by simp [hx])
  | cons c m ih => simp only [List.cons_append, Memory.read, ih]

theorem read_append_right {m n : Memory} {a : Nat} (h : ∀ cell ∈ m, cell.1 ≠ a) :
    (m ++ n).read a = Memory.read n a := by
  induction m with
  | nil => rfl
  | cons c m ih =>
    have hc := h c (by simp)
    simp only [List.cons_append, Memory.read, hc, if_false]
    exact ih fun x hx => h x (by simp [hx])

theorem read_filter {p : Host.Cell → Bool} {a : Nat} (hp : ∀ b, p (a, b) = true) :
    ∀ (m : Memory), Memory.read (m.filter p) a = m.read a
  | [] => rfl
  | (k, b) :: m => by
    by_cases hk : k = a
    · subst hk; simp [List.filter, hp, Memory.read]
    · by_cases hpk : p (k, b) = true
      · simp only [List.filter, hpk, Memory.read, hk, if_false]; exact read_filter hp m
      · simp only [List.filter, Bool.not_eq_true _ ▸ hpk, Memory.read, hk, if_false]; exact read_filter hp m

theorem risingFrom_filter (p : Host.Cell → Bool) :
    ∀ {m : Memory} {lo : Nat}, m.risingFrom lo = true → Memory.risingFrom lo (m.filter p) = true
  | [], _, _ => rfl
  | (k, b) :: m, lo, hm => by
    simp only [Memory.risingFrom, Bool.and_eq_true, decide_eq_true_eq] at hm
    have ih := risingFrom_filter p hm.2
    by_cases hp : p (k, b) = true
    · simp only [List.filter, hp, Memory.risingFrom, Bool.and_eq_true, decide_eq_true_eq]
      exact ⟨hm.1, ih⟩
    · simp only [List.filter, Bool.not_eq_true _ ▸ hp]
      exact risingFrom_mono (by omega) ih

theorem risingFrom_append {bound : Nat} {n : Memory} (hn : n.risingFrom bound = true) :
    ∀ {m : Memory} {lo : Nat}, m.risingFrom lo = true → lo ≤ bound → (∀ cell ∈ m, cell.1 < bound) →
      Memory.risingFrom lo (m ++ n) = true
  | [], _, _, hlo, _ => risingFrom_mono hlo hn
  | (k, b) :: m, lo, hm, _, hall => by
    simp only [Memory.risingFrom, Bool.and_eq_true, decide_eq_true_eq] at hm
    have hk : k < bound := hall (k, b) (by simp)
    simp only [List.cons_append, Memory.risingFrom, Bool.and_eq_true, decide_eq_true_eq]
    exact ⟨hm.1, risingFrom_append hn hm.2 (by omega) fun c hc => hall c (by simp [hc])⟩

/-- `State.loadImage` keeps the canonical form. -/
theorem wf_loadImage {s : State} (h : s.mem.wf = true) (bs : List Byte) : (s.loadImage bs).mem.wf = true := by
  have hf := risingFrom_filter (fun cell => decide (cell.1 < Config.romBase)) h
  exact risingFrom_append (risingFrom_layFrom bs (le_refl _)) hf (Nat.zero_le _) fun c hc => by
    simpa using (List.mem_filter.1 hc).2

/-! ### The router -/

@[simp] theorem writeByte_regs (s : State) (a : Word) (v : Byte) : (s.writeByte a v).regs = s.regs := by
  simp only [State.writeByte]; split <;> rfl
@[simp] theorem writeByte_cpsr (s : State) (a : Word) (v : Byte) : (s.writeByte a v).cpsr = s.cpsr := by
  simp only [State.writeByte]; split <;> rfl
@[simp] theorem writeByte_saved (s : State) (a : Word) (v : Byte) : (s.writeByte a v).saved = s.saved := by
  simp only [State.writeByte]; split <;> rfl
@[simp] theorem writeByte_romLen (s : State) (a : Word) (v : Byte) : (s.writeByte a v).romLen = s.romLen := by
  simp only [State.writeByte]; split <;> rfl
@[simp] theorem writeByte_vram (s : State) (a : Word) (v : Byte) : (s.writeByte a v).vram = s.vram := by
  simp only [State.writeByte]; split <;> rfl

@[simp] theorem writeWord_regs (s : State) (a v : Word) : (s.writeWord a v).regs = s.regs := by simp [State.writeWord]
@[simp] theorem writeWord_cpsr (s : State) (a v : Word) : (s.writeWord a v).cpsr = s.cpsr := by simp [State.writeWord]
@[simp] theorem writeWord_saved (s : State) (a v : Word) : (s.writeWord a v).saved = s.saved := by simp [State.writeWord]
@[simp] theorem writeWord_romLen (s : State) (a v : Word) : (s.writeWord a v).romLen = s.romLen := by
  simp [State.writeWord]
@[simp] theorem writeWord_vram (s : State) (a v : Word) : (s.writeWord a v).vram = s.vram := by simp [State.writeWord]

/-- Backing depends on ROM_LEN alone. -/
theorem backed_congr {s t : State} (h : t.romLen = s.romLen) (a : Word) : t.backed a = s.backed a := by
  simp only [State.backed, h]

@[simp] theorem backed_writeByte (s : State) (a : Word) (v : Byte) (x : Word) :
    (s.writeByte a v).backed x = s.backed x := backed_congr (writeByte_romLen s a v) x

/-- Bytes read alike in states with the same memory and ROM_LEN. -/
theorem readByte_congr {s t : State} (hm : t.mem = s.mem) (hl : t.romLen = s.romLen) (a : Word) :
    t.readByte a = s.readByte a := by
  simp only [State.readByte, backed_congr hl, hm]

/-- `write_byte` keeps the canonical form. -/
theorem wf_writeByte {s : State} (h : s.mem.wf = true) (a : Word) (v : Byte) : (s.writeByte a v).mem.wf = true := by
  simp only [State.writeByte]
  split
  · exact wf_write h _ _
  · exact h

/-- A word read as sums of words (R59). -/
theorem readWord_eq (s : State) (a : Word) :
    s.readWord a = joinBytes (s.readByte a) (s.readByte (a + 1#32)) (s.readByte (a + 2#32)) (s.readByte (a + 3#32)) := by
  simp only [State.readWord, addrAdd_eq]

/-- A word write as sums of words (R60). -/
theorem writeWord_eq (s : State) (a v : Word) :
    s.writeWord a v = (((s.writeByte a (field v 0 8)).writeByte (a + 1#32) (field v 8 8)).writeByte
      (a + 2#32) (field v 16 8)).writeByte (a + 3#32) (field v 24 8) := by
  simp only [State.writeWord, addrAdd_eq]

/-- `write_word` keeps the canonical form. -/
theorem wf_writeWord {s : State} (h : s.mem.wf = true) (a v : Word) : (s.writeWord a v).mem.wf = true :=
  wf_writeByte (wf_writeByte (wf_writeByte (wf_writeByte h _ _) _ _) _ _) _ _

/-- Everything a byte write does to byte reads (R58): the written address, if it has backing, and no other. -/
theorem readByte_writeByte {s : State} (h : s.mem.wf = true) (a : Word) (v : Byte) (x : Word) :
    (s.writeByte a v).readByte x = if x = a ∧ s.backed a = true then v else s.readByte x := by
  by_cases hb : s.backed a = true
  · by_cases hx : x = a
    · subst hx
      simp only [State.readByte, backed_writeByte]
      simp [State.writeByte, hb, read_write_same (lo := 0) v h]
    · have : x.toNat ≠ a.toNat := fun e => hx (BitVec.eq_of_toNat_eq e)
      simp only [hx, false_and, if_false]
      simp only [State.readByte, backed_writeByte]
      simp [State.writeByte, hb, read_write_ne v this]
  · simp [State.writeByte, hb]

end Sys2Proof.Machine
end

