-- ==== Sys2Proof/Laws/Execute.lean ====
section
/-!
SUPPORT. One lemma per shared operation of the executors, which says everything it does in the terms of Safety.lean:
the skip, the two write-backs, the condition gate, and the step.
-/

namespace Sys2Proof.Machine

/-- States that agree beside registers and flags. -/
theorem sameInert_of {s t : State} (h1 : t.cpsr.extractLsb' 0 28 = s.cpsr.extractLsb' 0 28)
    (h2 : t.saved = s.saved) (h3 : t.vram = s.vram) (h4 : t.romLen = s.romLen) (h5 : t.mem = s.mem) :
    SameInert s t :=
  ⟨h1, h2, h3, h4, h5, readByte_congr h5 h4⟩

/-- An operand read of r15 gives A + 8, of any other register its slot (R26). -/
theorem operandReg_eq (s : State) (i : Reg) : s.operandReg i = if i = 15 then s.pc + 8#32 else s.readReg i := by
  simp only [State.operandReg, addrAdd_eq]

/-- The branch target as a sum of words (R181). -/
theorem branchTarget_eq (a : Word) (imm24 : BitVec 24) :
    branchTarget a imm24 = a + 8#32 + imm24.signExtend 32 * 4#32 := by
  simp only [branchTarget, addrAdd_eq]

/-- The generic advance is the whole of a skip (R114). -/
theorem skipped_advance (s : State) : Skipped s s.advance where
  pc := (pc_setPc s _).trans (nextPc_eq s)
  registers _ h := readReg_setPc_ne s _ h
  flags := rfl
  inert := sameInert_of rfl rfl rfl rfl rfl

/-- What the write-back does (R153, R154). -/
theorem wroteResult_writeBack (s : State) (sets : Bool) (rd : Reg) (out : AluOut) :
    WroteResult s (s.writeBack sets rd out) sets rd out.result out.flags := by
  by_cases h15 : rd = 15
  · subst h15
    cases sets
    · simp only [State.writeBack, if_true]
      exact ⟨readReg_writeReg_same _ _ _, fun h => absurd rfl h, fun i h _ => readReg_writeReg_ne _ _ h, by simp,
        sameInert_of rfl rfl rfl rfl rfl⟩
    · simp only [State.writeBack, if_true]
      exact ⟨readReg_writeReg_same _ _ _, fun h => absurd rfl h, fun i h _ => by simp [readReg_writeReg_ne _ _ h],
        by simp, sameInert_of (by simp) rfl rfl rfl rfl⟩
  · cases sets
    · simp only [State.writeBack, h15, if_false]
      exact ⟨by simp [readReg_setPc_ne _ _ h15], fun _ => by simp,
        fun i h h' => by simp [readReg_setPc_ne _ _ h', readReg_writeReg_ne _ _ h], by simp,
        sameInert_of (by simp) rfl rfl rfl rfl⟩
    · simp only [State.writeBack, h15, if_false, if_true]
      exact ⟨by simp [readReg_setPc_ne _ _ h15], fun _ => by simp,
        fun i h h' => by simp [readReg_setPc_ne _ _ h', readReg_writeReg_ne _ _ h], by simp,
        sameInert_of (by simp) rfl rfl rfl rfl⟩

/-- What the write-back of CMP does (R159). -/
theorem compared_compareBack (s : State) (out : AluOut) : Compared s (s.compareBack out) out.flags where
  pc := by simp [State.compareBack]
  registers i h := by simp [State.compareBack, readReg_setPc_ne _ _ h]
  flags := by simp [State.compareBack]
  inert := sameInert_of (by simp [State.compareBack]) rfl rfl rfl rfl

/-- The gate with a passing condition is the effect. -/
theorem whenPassed_pass {c : Cond} {s : State} (h : condPass c s.nzcv = true) (e : State) :
    whenPassed c s e = .next e := by simp [whenPassed, h]

/-- The gate with a failing condition is the skip (R114). -/
theorem whenPassed_fail {c : Cond} {s : State} (h : condPass c s.nzcv = false) (e : State) :
    whenPassed c s e = .next s.advance := by simp [whenPassed, h]

/-- The gate always goes on: to the effect, or to the skip. -/
theorem whenPassed_cases {c : Cond} {s e t : State} (h : whenPassed c s e = .next t) :
    (condPass c s.nzcv = true ∧ t = e) ∨ (condPass c s.nzcv = false ∧ t = s.advance) := by
  cases hc : condPass c s.nzcv
  · rw [whenPassed_fail hc] at h; cases h; exact .inr ⟨rfl, rfl⟩
  · rw [whenPassed_pass hc] at h; cases h; exact .inl ⟨rfl, rfl⟩

/-- Everything a step can do (R119): skip, execute the decoded instruction, or raise the fault. -/
theorem step_cases (s : State) :
    (s.passes = false ∧ step s = .next s.advance) ∨
    (s.passes = true ∧ ∃ i, decode s.fetch = .ok i ∧ step s = exec i s) ∨
    (s.passes = true ∧ ∃ r, decode s.fetch = .error r ∧ step s = .fault (.unimplemented r s.fetch s.pc)) := by
  cases hp : s.passes
  · left
    simp only [State.passes] at hp
    simp [step, runWord, hp]
  · right
    simp only [State.passes] at hp
    cases hd : decode s.fetch with
    | ok i => exact .inl ⟨rfl, i, rfl, by simp [step, runWord, hp, hd]⟩
    | error r => exact .inr ⟨rfl, r, rfl, by simp [step, runWord, hp, hd, raiseUnimplemented]⟩

end Sys2Proof.Machine
end

