-- ==== Sys2Proof/Laws/PerInstr.lean ====
section
/-!
SUPPORT. Per-instruction families: what holds of each constructor of `Instr` as syntax.
-/

namespace Sys2Proof.Laws

/-- The encoded word of an instruction matches its row of R92, and the row is one of the fourteen. -/
def MatchesRow.Statement (i : Instr) : Prop :=
  encode i &&& i.mask = i.pattern ∧ (i.mask, i.pattern) ∈ opcodeRows

theorem encodeImm_row (c : Cond) (op : DpOp) (s : Bool) (rn rd : Reg) (rotate : BitVec 4) (imm8 : BitVec 8) :
    encodeImm c op s rn rd rotate imm8 &&& 0x0FE00000#32 = 0b0000001#7 ++ op.bits ++ 0#21 := by
  apply BitVec.eq_of_getLsbD_eq
  intro i hi
  simp only [encodeImm, BitVec.getLsbD_and, BitVec.getLsbD_append]
  interval_cases i <;> simp

theorem encodeReg_row (c : Cond) (op : DpOp) (s : Bool) (rn rd : Reg) (sh : Shift) (rm : Reg) :
    encodeReg c op s rn rd sh rm &&& 0x0FE00010#32 = 0#7 ++ op.bits ++ 0#21 := by
  apply BitVec.eq_of_getLsbD_eq
  intro i hi
  simp only [encodeReg, BitVec.getLsbD_and, BitVec.getLsbD_append]
  interval_cases i <;> simp

theorem encodeBranch_row (c : Cond) (link : Bool) (imm24 : BitVec 24) :
    encodeBranch c link imm24 &&& 0x0F000000#32 = 0b0000101#7 ++ BitVec.ofBool link ++ 0#24 := by
  apply BitVec.eq_of_getLsbD_eq
  intro i hi
  simp only [encodeBranch, BitVec.getLsbD_and, BitVec.getLsbD_append]
  interval_cases i <;> simp

theorem MatchesRow.subImm (c : Cond) (s : Bool) (rn rd : Reg) (r : BitVec 4) (b : BitVec 8) :
    MatchesRow.Statement (.subImm c s rn rd r b) := ⟨encodeImm_row c .sub s rn rd r b, by simp [Instr.mask, Instr.pattern, opcodeRows]⟩

theorem MatchesRow.subReg (c : Cond) (s : Bool) (rn rd : Reg) (sh : Shift) (rm : Reg) :
    MatchesRow.Statement (.subReg c s rn rd sh rm) := ⟨encodeReg_row c .sub s rn rd sh rm, by simp [Instr.mask, Instr.pattern, opcodeRows]⟩

theorem MatchesRow.addImm (c : Cond) (s : Bool) (rn rd : Reg) (r : BitVec 4) (b : BitVec 8) :
    MatchesRow.Statement (.addImm c s rn rd r b) := ⟨encodeImm_row c .add s rn rd r b, by simp [Instr.mask, Instr.pattern, opcodeRows]⟩

theorem MatchesRow.addReg (c : Cond) (s : Bool) (rn rd : Reg) (sh : Shift) (rm : Reg) :
    MatchesRow.Statement (.addReg c s rn rd sh rm) := ⟨encodeReg_row c .add s rn rd sh rm, by simp [Instr.mask, Instr.pattern, opcodeRows]⟩

theorem MatchesRow.adcImm (c : Cond) (s : Bool) (rn rd : Reg) (r : BitVec 4) (b : BitVec 8) :
    MatchesRow.Statement (.adcImm c s rn rd r b) := ⟨encodeImm_row c .adc s rn rd r b, by simp [Instr.mask, Instr.pattern, opcodeRows]⟩

theorem MatchesRow.adcReg (c : Cond) (s : Bool) (rn rd : Reg) (sh : Shift) (rm : Reg) :
    MatchesRow.Statement (.adcReg c s rn rd sh rm) := ⟨encodeReg_row c .adc s rn rd sh rm, by simp [Instr.mask, Instr.pattern, opcodeRows]⟩

theorem MatchesRow.sbcImm (c : Cond) (s : Bool) (rn rd : Reg) (r : BitVec 4) (b : BitVec 8) :
    MatchesRow.Statement (.sbcImm c s rn rd r b) := ⟨encodeImm_row c .sbc s rn rd r b, by simp [Instr.mask, Instr.pattern, opcodeRows]⟩

theorem MatchesRow.sbcReg (c : Cond) (s : Bool) (rn rd : Reg) (sh : Shift) (rm : Reg) :
    MatchesRow.Statement (.sbcReg c s rn rd sh rm) := ⟨encodeReg_row c .sbc s rn rd sh rm, by simp [Instr.mask, Instr.pattern, opcodeRows]⟩

theorem MatchesRow.cmpImm (c : Cond) (rn : Reg) (r : BitVec 4) (b : BitVec 8) :
    MatchesRow.Statement (.cmpImm c rn r b) := ⟨encodeImm_row c .cmp true rn 0 r b, by simp [Instr.mask, Instr.pattern, opcodeRows]⟩

theorem MatchesRow.cmpReg (c : Cond) (rn : Reg) (sh : Shift) (rm : Reg) :
    MatchesRow.Statement (.cmpReg c rn sh rm) := ⟨encodeReg_row c .cmp true rn 0 sh rm, by simp [Instr.mask, Instr.pattern, opcodeRows]⟩

theorem MatchesRow.movImm (c : Cond) (s : Bool) (rd : Reg) (r : BitVec 4) (b : BitVec 8) :
    MatchesRow.Statement (.movImm c s rd r b) := ⟨encodeImm_row c .mov s 0 rd r b, by simp [Instr.mask, Instr.pattern, opcodeRows]⟩

theorem MatchesRow.movReg (c : Cond) (s : Bool) (rd : Reg) (sh : Shift) (rm : Reg) :
    MatchesRow.Statement (.movReg c s rd sh rm) := ⟨encodeReg_row c .mov s 0 rd sh rm, by simp [Instr.mask, Instr.pattern, opcodeRows]⟩

theorem MatchesRow.b (c : Cond) (imm24 : BitVec 24) : MatchesRow.Statement (.b c imm24) :=
  ⟨encodeBranch_row c false imm24, by simp [Instr.mask, Instr.pattern, opcodeRows]⟩

theorem MatchesRow.bl (c : Cond) (imm24 : BitVec 24) : MatchesRow.Statement (.bl c imm24) :=
  ⟨encodeBranch_row c true imm24, by simp [Instr.mask, Instr.pattern, opcodeRows]⟩

end Sys2Proof.Laws
end

