-- ==== Sys2Proof/Tests/Slice0.lean ====
section
/-!
SUPPORT. Tests of the model on fixed values. Every expected result is the spec's: spec/95_test_vectors.md (the vector's
id stands in the docstring), the match column of 30 R92, or the text of the rule named. At the end, one witness for
every statement of Certificates/Slice0/Obligations.lean that has hypotheses.
-/

namespace Sys2Proof.Tests

open Sys2Proof.Machine

/-! ### Helpers -/

/-- The state after reset with these flags and registers, and a word at the program counter, as 95's vectors say it. -/
def before (f : Nzcv) (regs : List (Reg × Word)) (w : Word) : State :=
  (regs.foldl (fun s p => s.writeReg p.1 p.2) (State.reset.setNzcv f)).withFetchWord 32 w.toNat

/-- Flags as the vectors write them, NZCV. -/
def nzcv (n z c v : Nat) : Nzcv := ⟨n == 1, z == 1, c == 1, v == 1⟩

/-- The flags after reset. -/
def resetFlags : Nzcv := nzcv 0 1 1 0

def nextOf : Result → Option State
  | .next t => some t
  | .fault _ | .refused _ => none

def faultOf : Result → Option Fault
  | .fault f => some f
  | .next _ | .refused _ => none

/-- The registers named and the flags after one step. -/
def after (s : State) (regs : List Reg) : Option (List Word × Nzcv) :=
  (nextOf (step s)).map fun t => (regs.map t.readReg, t.nzcv)

/-- The six bytes of M7. -/
def m7 : State := State.reset.loadImage [1, 2, 3, 4, 5, 6]

theorem next_of {r : Result} (h : (nextOf r).isSome = true) : ∃ t, r = .next t := by
  cases r with
  | next t => exact ⟨t, rfl⟩
  | fault f => simp [nextOf] at h
  | refused f => simp [nextOf] at h

theorem fault_of {r : Result} {f : Fault} (h : faultOf r = some f) : r = .fault f := by
  cases r with
  | next t => simp [faultOf] at h
  | fault g => simpa [faultOf] using h
  | refused g => simp [faultOf] at h

/-! ### Well-formedness: one ill-formed term for each check (30 R93) -/

theorem test_wf_accepts : (Instr.movReg .al false 0 (.lsr 32) 1).wf = true ∧
    (Instr.movReg .al false 0 (.lsl 0) 1).wf = true ∧ (Instr.movReg .al false 0 .rrx 1).wf = true := by decide
theorem test_wf_refuses_lsl_32 : (Instr.movReg .al false 0 (.lsl 32) 1).wf = false := by decide
theorem test_wf_refuses_lsr_0 : (Instr.subReg .al false 0 1 (.lsr 0) 1).wf = false := by decide
theorem test_wf_refuses_lsr_33 : (Instr.addReg .al false 0 1 (.lsr 33) 1).wf = false := by decide
theorem test_wf_refuses_asr_0 : (Instr.adcReg .al false 0 1 (.asr 0) 1).wf = false := by decide
theorem test_wf_refuses_asr_33 : (Instr.sbcReg .al false 0 1 (.asr 33) 1).wf = false := by decide
theorem test_wf_refuses_ror_0 : (Instr.cmpReg .al 0 (.ror 0) 1).wf = false := by decide
theorem test_wf_refuses_ror_32 : (Instr.movReg .al false 0 (.ror 32) 1).wf = false := by decide

/-! ### Decoding: a word written out from the spec's encoding for every constructor -/

/-- cond 1110, 001, 0010, S 0, rn 1, rd 4, rotate 0, imm8 5 (W3). -/
theorem test_decode_subImm : decode 0b1110_001_0010_0_0001_0100_0000_00000101#32 =
    .ok (.subImm .al false 1 4 0x0#4 0x05#8) := by decide
/-- cond 1110, 000, 0010, S 1, rn 1, rd 0, amount 0, type 00, 0, rm 2 (V-SUB-1). -/
theorem test_decode_subReg : decode 0b1110_000_0010_1_0001_0000_00000_00_0_0010#32 =
    .ok (.subReg .al true 1 0 (.lsl 0) 2) := by decide
/-- W1. -/
theorem test_decode_addImm : decode 0b1110_001_0100_0_0001_0000_0000_00100000#32 =
    .ok (.addImm .al false 1 0 0x0#4 0x20#8) := by decide
/-- V-OP2-7, ADD r0, r1, r1, LSL #2. -/
theorem test_decode_addReg : decode 0b1110_000_0100_0_0001_0000_00010_00_0_0001#32 =
    .ok (.addReg .al false 1 0 (.lsl 2) 1) := by decide
/-- Opcode 0101, format DPI (R92), condition CS, S 1, rotate 4, imm8 0xFF. -/
theorem test_decode_adcImm : decode 0b0010_001_0101_1_0011_0111_0100_11111111#32 =
    .ok (.adcImm .cs true 3 7 0x4#4 0xFF#8) := by decide
/-- W6 with LSR #32 on the operand: amount 0, type 01 (R93). -/
theorem test_decode_adcReg : decode 0b1110_000_0101_0_0001_0000_00000_01_0_0010#32 =
    .ok (.adcReg .al false 1 0 (.lsr 32) 2) := by decide
/-- Opcode 0110, format DPI (R92), condition VC. -/
theorem test_decode_sbcImm : decode 0b0111_001_0110_0_1110_0001_1111_00000001#32 =
    .ok (.sbcImm .vc false 14 1 0xF#4 0x01#8) := by decide
/-- V-SBC-1 with ASR #31 on the operand: amount 11111, type 10. -/
theorem test_decode_sbcReg : decode 0b1110_000_0110_1_0001_0000_11111_10_0_0010#32 =
    .ok (.sbcReg .al true 1 0 (.asr 31) 2) := by decide
/-- V-CMP-5. -/
theorem test_decode_cmpImm : decode 0b1110_001_1010_1_0000_0000_0001_00000010#32 =
    .ok (.cmpImm .al 0 0x1#4 0x02#8) := by decide
/-- V-CMP-4: the rd field is not read. -/
theorem test_decode_cmpReg : decode 0b1110_000_1010_1_0000_1111_00000_00_0_0001#32 =
    .ok (.cmpReg .al 0 (.lsl 0) 1) := by decide
/-- V-OP2-8. -/
theorem test_decode_movImm : decode 0b1110_001_1101_1_0000_0000_0100_11111111#32 =
    .ok (.movImm .al true 0 0x4#4 0xFF#8) := by decide
/-- V-MOV-6 with ROR #4 on the operand: the rn field is not read; amount 00100, type 11. -/
theorem test_decode_movReg : decode 0b1110_000_1101_0_1111_0001_00100_11_0_0000#32 =
    .ok (.movReg .al false 1 (.ror 4) 0) := by decide
/-- W4, backward branch. -/
theorem test_decode_b : decode 0b1110_101_0_111111111111111111111011#32 = .ok (.b .al 0xFFFFFB#24) := by decide
/-- W4, linked branch. -/
theorem test_decode_bl : decode 0b1110_101_1_000000000000000000000001#32 = .ok (.bl .al 0x000001#24) := by decide

/-- A byte list shorter than a word is no instruction; the bytes after one are handed back (R80). -/
theorem test_decodeBytes : decodeBytes [0x20, 0x00, 0x81] = .error .tooFewBytes ∧
    decodeBytes [0x20, 0x00, 0x81, 0xE2, 0xAA] = .ok (.addImm .al false 1 0 0x0#4 0x20#8, [0xAA]) := by decide
/-- W1 encodes to its word, V-CMP-3's ignored S bit to 1 and V-MOV-6's ignored rn to 0 (R93). -/
theorem test_encode : encode (.addImm .al false 1 0 0x0#4 0x20#8) = 0xE2810020#32 ∧
    encode (.cmpReg .al 0 (.lsl 0) 1) = 0xE1500001#32 ∧ encode (.movReg .al false 1 (.lsl 0) 0) = 0xE1A01000#32 := by decide

/-! ### One step of each instruction -/

/-- V-SUB-6. -/
theorem test_subImm : after (before (nzcv 0 0 0 0) [(1, 0)] 0xE2510000#32) [0, 15] =
    some ([0#32, 0x08000004#32], nzcv 0 1 1 0) := by decide
/-- V-SUB-7: rd = 15 with S = 1. -/
theorem test_subImm_pc : after (before resetFlags [(14, 0x08000010)] 0xE25EF004#32) [14, 15] =
    some ([0x08000010#32, 0x0800000C#32], nzcv 0 0 1 0) := by decide
/-- V-SUB-3. -/
theorem test_subReg : after (before resetFlags [(1, 0x80000000), (2, 1)] 0xE0510002#32) [0, 1, 2, 15] =
    some ([0x7FFFFFFF#32, 0x80000000#32, 1#32, 0x08000004#32], nzcv 0 0 1 1) := by decide
/-- V-SUB-5. -/
theorem test_subReg_no_flags : after (before resetFlags [(1, 0), (2, 1)] 0xE0410002#32) [0] =
    some ([0xFFFFFFFF#32], nzcv 0 1 1 0) := by decide
/-- W1. -/
theorem test_addImm : after (before resetFlags [] 0xE2810020#32) [0, 15] =
    some ([0x20#32, 0x08000004#32], nzcv 0 1 1 0) := by decide
/-- V-ADD-6: both the operand and the destination are the program counter. -/
theorem test_addImm_pc : after (before resetFlags [] 0xE28FF000#32) [15] =
    some ([0x08000008#32], nzcv 0 1 1 0) := by decide
/-- V-ADD-3. -/
theorem test_addReg : after (before resetFlags [(1, 0x80000000), (2, 0x80000000)] 0xE0910002#32) [0] =
    some ([0#32], nzcv 0 1 1 1) := by decide
/-- V-ADD-5: source and destination are one register. -/
theorem test_addReg_same : after (before resetFlags [(0, 0x40000000)] 0xE0800000#32) [0] =
    some ([0x80000000#32], nzcv 0 1 1 0) := by decide
/-- 0x7FFFFFFF + 0 + 1 (R157's corner case), ADCS r0, r1, #0. -/
theorem test_adcImm : after (before (nzcv 0 0 1 0) [(1, 0x7FFFFFFF)] 0xE2B10000#32) [0] =
    some ([0x80000000#32], nzcv 1 0 0 1) := by decide
/-- V-ADC-5. -/
theorem test_adcReg : after (before (nzcv 0 0 1 0) [(1, 0xFFFFFFFF), (2, 0xFFFFFFFF)] 0xE0B10002#32) [0] =
    some ([0xFFFFFFFF#32], nzcv 1 0 1 0) := by decide
/-- V-ADC-2 (W6). -/
theorem test_adcReg_no_carry : after (before (nzcv 0 0 0 0) [(1, 1), (2, 1)] 0xE0A10002#32) [0] =
    some ([2#32], nzcv 0 0 0 0) := by decide
/-- 5 - 5 with C = 0 (R158's corner case), SBCS r0, r1, #5. -/
theorem test_sbcImm : after (before (nzcv 0 0 0 0) [(1, 5)] 0xE2D10005#32) [0] =
    some ([0xFFFFFFFF#32], nzcv 1 0 0 0) := by decide
/-- V-SBC-5. -/
theorem test_sbcReg_borrow : after (before (nzcv 0 0 0 0) [(1, 0), (2, 0xFFFFFFFF)] 0xE0D10002#32) [0] =
    some ([0#32], nzcv 0 1 0 0) := by decide
/-- V-SBC-7. -/
theorem test_sbcReg_overflow : after (before (nzcv 0 0 0 0) [(1, 0x80000000), (2, 0)] 0xE0D10002#32) [0] =
    some ([0x7FFFFFFF#32], nzcv 0 0 1 1) := by decide
/-- V-CMP-5. -/
theorem test_cmpImm : after (before resetFlags [(0, 0)] 0xE3500102#32) [0, 15] =
    some ([0#32, 0x08000004#32], nzcv 1 0 0 1) := by decide
/-- V-CMP-3: flags although S = 0. -/
theorem test_cmpReg_s0 : after (before (nzcv 0 0 0 0) [(0, 7), (1, 7)] 0xE1400001#32) [0, 1] =
    some ([7#32, 7#32], nzcv 0 1 1 0) := by decide
/-- V-CMP-4: the rd field 15 makes no control transfer. -/
theorem test_cmpReg_rd15 : after (before resetFlags [(0, 9), (1, 7)] 0xE150F001#32) [15] =
    some ([0x08000004#32], nzcv 0 0 1 0) := by decide
/-- V-OP2-8: C from the rotated immediate, V kept. -/
theorem test_movImm_rotated : after (before (nzcv 0 0 0 1) [] 0xE3B004FF#32) [0] =
    some ([0xFF000000#32], nzcv 1 0 1 1) := by decide
/-- V-MOV-4: no alignment is forced. -/
theorem test_movImm_pc : after (before resetFlags [] 0xE3A0F001#32) [15] = some ([1#32], nzcv 0 1 1 0) := by decide
/-- V-OP2-4: RRX takes the carry in. -/
theorem test_movReg_rrx : after (before (nzcv 0 0 1 0) [(1, 3)] 0xE1B00061#32) [0] =
    some ([0x80000001#32], nzcv 1 0 1 0) := by decide
/-- V-MOV-3: MOV pc, lr. -/
theorem test_movReg_pc : after (before resetFlags [(14, 0x08000104)] 0xE1A0F00E#32) [15] =
    some ([0x08000104#32], nzcv 0 1 1 0) := by decide
/-- V-B-7, the largest backward branch. -/
theorem test_b : after (before resetFlags [] 0xEA800000#32) [14, 15] = some ([0#32, 0x06000008#32], nzcv 0 1 1 0) := by decide
/-- V-COND-LE-1: BLE with Z = 1 and N = V is taken. -/
theorem test_b_le : after (before resetFlags [] 0xDA000001#32) [15] = some ([0x0800000C#32], nzcv 0 1 1 0) := by decide
/-- V-B-2. -/
theorem test_bl : after (before resetFlags [] 0xEB000001#32) [14, 15] =
    some ([0x08000004#32, 0x0800000C#32], nzcv 0 1 1 0) := by decide
/-- V-COND-4: a skipped BL writes no link. -/
theorem test_bl_skipped : after (before resetFlags [] 0x1B000001#32) [14, 15] =
    some ([0#32, 0x08000004#32], nzcv 0 1 1 0) := by decide

/-! ### Faults, operand 2, the adder, memory -/

/-- 2.13, with D4's word 0x60000010: the status register and its mode field after reset. -/
theorem test_reset_status : State.reset.cpsr = 0x60000010#32 ∧ State.reset.mode = 0b10000#5 := by decide
/-- `0xFFFFFFFC + 4 = 0x00000000` (R25). -/
theorem test_addr_wrap : addrAdd 0xFFFFFFFC#32 4#32 = 0#32 := by decide

/-- V-F-2, V-F-5, V-F-7: the reason, the word and the address. -/
theorem test_faults :
    faultOf (step (before resetFlags [] 0xE5910000#32)) = some (.unimplemented .cls 0xE5910000#32 0x08000000#32) ∧
    faultOf (step (before resetFlags [] 0xE0000291#32)) = some (.unimplemented .opcode 0xE0000291#32 0x08000000#32) ∧
    faultOf (step (before resetFlags [] 0xE0810312#32)) = some (.unimplemented .shiftForm 0xE0810312#32 0x08000000#32) := by
  decide
/-- V-COND-5: the condition is tested before the word is looked at. -/
theorem test_skip_before_decode : after (before resetFlags [] 0x15910000#32) [15] =
    some ([0x08000004#32], nzcv 0 1 1 0) := by decide
/-- V-SH-5, V-SH-6, V-SH-9, V-SH-12, V-SH-13. -/
theorem test_shifter :
    barrelShift 0x00000003#32 .lsl 31#5 false = (0x80000000#32, true) ∧
    barrelShift 0x80000000#32 .lsr 0#5 false = (0x00000000#32, true) ∧
    barrelShift 0x80000000#32 .asr 0#5 false = (0xFFFFFFFF#32, true) ∧
    barrelShift 0x80000000#32 .asr 4#5 false = (0xF8000000#32, false) ∧
    barrelShift 0x0000000F#32 .ror 4#5 false = (0xF0000000#32, true) ∧
    barrelShift 0x00000003#32 .ror 0#5 true = (0x80000001#32, true) := by decide
/-- The immediate operand vectors of 95 section 2.2. -/
theorem test_immediate :
    immOperand 0#4 0x20#8 true = (0x00000020#32, true) ∧ immOperand 1#4 0x01#8 true = (0x40000000#32, false) ∧
    immOperand 15#4 0xFF#8 false = (0x000003FC#32, false) := by decide
/-- Rows 3, 4, 5 and 9 of 95 section 2.3. -/
theorem test_adder :
    addWithCarry 0x7FFFFFFF#32 1#32 false = ⟨0x80000000#32, false, true⟩ ∧
    addWithCarry 0x80000000#32 0x80000000#32 false = ⟨0#32, true, true⟩ ∧
    addWithCarry 0xFFFFFFFF#32 0xFFFFFFFF#32 true = ⟨0xFFFFFFFF#32, true, false⟩ ∧
    addWithCarry 0x80000000#32 0xFFFFFFFE#32 true = ⟨0x7FFFFFFF#32, true, true⟩ := by decide
/-- M1 and M2, M4, M11. -/
theorem test_memory_words :
    ((State.reset.writeWord 0x02000000 0x11223344).readByte 0x02000001 = 0x33#8) ∧
    ((State.reset.writeWord 0x0203FFFE 0xAABBCCDD).readWord 0x0203FFFE = 0x0000CCDD#32) ∧
    State.reset.readWord 0xFFFFFFFE = 0#32 := by decide
/-- M7, M8, M9, M10, M12. -/
theorem test_memory_rom :
    m7.readWord 0x08000000 = 0x04030201#32 ∧ m7.readWord 0x08000004 = 0x00000605#32 ∧
    (m7.writeByte 0x08000000 0xFF).readWord 0x08000000 = 0x040302FF#32 ∧
    (m7.writeByte 0x08000006 0x77) = m7 ∧
    (m7.loadImage [0xAA, 0xBB]).readWord 0x08000000 = 0x0000BBAA#32 ∧ m7.readWord 0x07FFFFFE = 0x02010000#32 := by decide
/-- W9. -/
theorem test_bit_utilities :
    setBit 0x00000000 31 true = some 0x80000000#32 ∧ setBit 0xFFFFFFFF 0 false = some 0xFFFFFFFE#32 ∧
    bits 0xE2810020 21 24 = some 4 ∧ bits 0xFFFFFFFF 0 31 = some 0xFFFFFFFF := by decide

/-! ### Witnesses: every hypothesis of every statement is met -/

theorem witness_DecodeUndoesEncode : (Instr.sbcReg .nv true 15 15 (.asr 32) 15).wf = true := by decide
theorem witness_EncodeUndoesDecode :
    decode 0xF1AF1000#32 = .ok (.movReg .nv false 1 (.lsl 0) 0) := by decide
theorem witness_DecodeAgreesWithMatchMaskRows :
    decode 0xE1500001#32 = .ok (.cmpReg .al 0 (.lsl 0) 1) ∧
    (0x0FE00010#32, 0x01400000#32) ∈ opcodeRows ∧ 0xE1500001#32 &&& 0x0FE00010#32 = 0x01400000#32 := by decide
theorem witness_BitUtilitiesObeyTheirLaws :
    bits 0x80000000#32 31 31 = some 1 ∧ bits 0x80000000#32 0 31 = some 0x80000000 ∧
    bitAt 0x80000000#32 31 = some true ∧ bitAt 0x80000000#32 32 = none ∧ (31 : Nat) ≤ 31 ∧ (31 : Nat) < 32 ∧ (30 : Nat) ≠ 31 := by decide
theorem witness_FieldsAreBitSlices : (0 < 4 ∧ 28 + 4 ≤ 32) ∧ (0 < 32 ∧ 0 + 32 ≤ 32) ∧ 31 ≤ 31 := by decide
theorem witness_OperandReadOfPcSeesThePrefetchOffset : condPass .al State.reset.nzcv = true := by decide
theorem witness_RegionLookupFollowsTheTable :
    region 0x02000000 = .ewram ∧ region 0x0203FFFF = .ewram ∧ region 0x03000000 = .iwram ∧ region 0x03007FFF = .iwram ∧
    region 0x08000000 = .rom ∧ region 0x0DFFFFFF = .rom := by decide
theorem witness_RamReadsBackWhatWasWritten : State.reset.mem.wf = true ∧
    (region 0x02000000 = .ewram ∧ region (0x02000000 + 3#32) = region 0x02000000) ∧
    (region 0x0203FFFC = .ewram ∧ region (0x0203FFFC + 3#32) = region 0x0203FFFC) ∧
    (region 0x03007FFC = .iwram ∧ region (0x03007FFC + 3#32) = region 0x03007FFC) ∧ (0x02000001#32 ≠ 0x02000000#32) := by decide
theorem witness_UnmappedReadsZeroAndDropsWrites :
    region 0x00000000 = .unmapped ∧ region 0x01FFFFFF = .unmapped ∧ region 0x02040000 = .unmapped ∧
    region 0x02FFFFFF = .unmapped ∧ region 0x03008000 = .unmapped ∧ region 0x07FFFFFF = .unmapped ∧
    region 0x0E000000 = .unmapped ∧ region 0xFFFFFFFF = .unmapped := by decide
theorem witness_RomWindowBacksExactlyTheImage : m7.mem.wf = true ∧
    (region 0x08000000 = .rom ∧ regionOffset 0x08000000 < m7.romLen) ∧
    (region 0x08000005 = .rom ∧ regionOffset 0x08000005 < m7.romLen) ∧
    (region 0x08000006 = .rom ∧ m7.romLen ≤ regionOffset 0x08000006) ∧
    (region 0x0DFFFFFF = .rom ∧ m7.romLen ≤ regionOffset 0x0DFFFFFF) := by decide
theorem witness_WordWriteIsFourRoutedByteWrites : m7.mem.wf = true := by decide
theorem witness_LoadImageReplacesTheRomRegion :
    region 0x08000000 = .rom ∧ region 0x0DFFFFFF = .rom ∧ region 0x07FFFFFF ≠ .rom ∧ region 0x0E000000 ≠ .rom := by decide
theorem witness_WrittenCodeIsTheNextFetch : m7.mem.wf = true ∧ m7.wordBacked m7.pc = true ∧
    decode 0xE2810020#32 = .ok (.addImm .al false 1 0 0x0#4 0x20#8) := by decide
theorem witness_PlacedWordIsTheNextFetch : State.reset.mem.wf = true ∧ (14 : Reg) ≠ 15 := by decide
theorem witness_ConditionTableHolds : (0 : Nat) < 8 ∧ (6 : Nat) < 8 ∧ (7 : Nat) < 8 := by decide
theorem witness_FailedConditionSkips :
    condPass (Cond.ofBits ((before resetFlags [] 0x15910000#32).fetch.extractLsb' 28 4))
      (before resetFlags [] 0x15910000#32).nzcv = false ∧
    condPass (Instr.bl .ne 1#24).cond State.reset.nzcv = false := by decide
theorem witness_NeverConditionSkipsEveryWord :
    (before resetFlags [] 0xF2810020#32).fetch.extractLsb' 28 4 = 0b1111#4 := by decide
theorem witness_ClassRoutesTheWord :
    ((before resetFlags [] 0xE5910000#32).passes = true ∧
      (before resetFlags [] 0xE5910000#32).fetch.extractLsb' 25 3 ∈ [0b010#3, 0b011#3, 0b100#3, 0b110#3, 0b111#3]) ∧
    ((before resetFlags [] 0xE2810020#32).passes = true ∧
      (before resetFlags [] 0xE2810020#32).fetch.extractLsb' 25 3 ∈ [0b000#3, 0b001#3]) ∧
    ((before resetFlags [] 0xEA000001#32).passes = true ∧
      (before resetFlags [] 0xEA000001#32).fetch.extractLsb' 25 3 = 0b101#3) := by decide
theorem witness_UnsupportedOpcodeFaults :
    (before resetFlags [] 0xE0010002#32).passes = true ∧
    (before resetFlags [] 0xE0010002#32).fetch.extractLsb' 25 3 ∈ [0b000#3, 0b001#3] ∧
    (before resetFlags [] 0xE0010002#32).fetch.extractLsb' 21 4 ∈
      [0b0000#4, 0b0001#4, 0b0011#4, 0b0111#4, 0b1000#4, 0b1001#4, 0b1011#4, 0b1100#4, 0b1110#4, 0b1111#4] := by decide
theorem witness_ShiftByRegisterFaults :
    (before resetFlags [] 0xE0810312#32).passes = true ∧
    (before resetFlags [] 0xE0810312#32).fetch.extractLsb' 25 3 = 0b000#3 ∧
    (before resetFlags [] 0xE0810312#32).fetch.getLsbD 4 = true ∧
    (before resetFlags [] 0xE0810312#32).fetch.extractLsb' 21 4 ∈
      [0b0010#4, 0b0100#4, 0b0101#4, 0b0110#4, 0b1010#4, 0b1101#4] := by decide
theorem witness_EveryWordSkipsExecutesOrFaults :
    (before resetFlags [] 0x15910000#32).passes = false ∧
    ((before resetFlags [] 0xE2810020#32).passes = true ∧
      ∃ row ∈ opcodeRows, (before resetFlags [] 0xE2810020#32).fetch &&& row.1 = row.2) ∧
    ((before resetFlags [] 0xE5910000#32).passes = true ∧
      ∀ row ∈ opcodeRows, (before resetFlags [] 0xE5910000#32).fetch &&& row.1 ≠ row.2) := by
  have h : (before resetFlags [] 0xE5910000#32).fetch = 0xE5910000#32 := by decide
  rw [h]
  exact ⟨by decide, ⟨by decide, (0x0FE00000#32, 0x02800000#32), by decide, by decide⟩, by decide, by simp [opcodeRows]⟩
theorem witness_FaultChangesNothingAndRecurs :
    step (before resetFlags [] 0xE5910000#32) = .fault (.unimplemented .cls 0xE5910000#32 0x08000000#32) :=
  fault_of (by decide)
theorem witness_StepRunsTheDecodedInstruction :
    decode ((before resetFlags [] 0xE2810020#32).readWord ((before resetFlags [] 0xE2810020#32).readReg 15)) =
      .ok (.addImm .al false 1 0 0x0#4 0x20#8) := by decide
theorem witness_ImmediateOperandRotatesRight : (0 < 32) ∧ (31 < 32) := by decide
theorem witness_ShifterShiftsAsEncoded : (0#5 = 0#5) ∧ (1#5 ≠ 0#5) ∧ (31#5 ≠ 0#5) := by decide
theorem witness_ShifterRotatesAsEncoded : (0#5 = 0#5) ∧ (1#5 ≠ 0#5) ∧ (31#5 ≠ 0#5) ∧ (0 < 32) ∧ (31 < 32) := by decide
/-- The three hypotheses of an instruction's rule: a word of each format, a SHIFT_FORM word that is fetched with its
condition passing, and a condition that passes. -/
theorem witness_SubFollowsItsRule :
    0xE2414005#32 &&& 0x0FE00000#32 = 0x02400000#32 ∧ 0xE0510002#32 &&& 0x0FE00010#32 = 0x00400000#32 ∧
    ((before resetFlags [] 0xE0510012#32).passes = true ∧
      (before resetFlags [] 0xE0510012#32).fetch &&& 0x0FE00010#32 = 0x00400010#32) ∧
    condPass .al State.reset.nzcv = true ∧ (14 : Reg) ≠ 15 := by decide
theorem witness_AddFollowsItsRule :
    0xE2810020#32 &&& 0x0FE00000#32 = 0x02800000#32 ∧ 0xE0910002#32 &&& 0x0FE00010#32 = 0x00800000#32 ∧
    ((before resetFlags [] 0xE0810312#32).passes = true ∧
      (before resetFlags [] 0xE0810312#32).fetch &&& 0x0FE00010#32 = 0x00800010#32) ∧
    condPass .eq State.reset.nzcv = true := by decide
theorem witness_AdcFollowsItsRule :
    0xE2B10000#32 &&& 0x0FE00000#32 = 0x02A00000#32 ∧ 0xE0A10002#32 &&& 0x0FE00010#32 = 0x00A00000#32 ∧
    ((before resetFlags [] 0xE0A10012#32).passes = true ∧
      (before resetFlags [] 0xE0A10012#32).fetch &&& 0x0FE00010#32 = 0x00A00010#32) ∧
    condPass .cs State.reset.nzcv = true ∧ condPass .cc (State.reset.setNzcv (nzcv 0 0 0 0)).nzcv = true := by decide
theorem witness_SbcFollowsItsRule :
    0xE2D10005#32 &&& 0x0FE00000#32 = 0x02C00000#32 ∧ 0xE0D10002#32 &&& 0x0FE00010#32 = 0x00C00000#32 ∧
    ((before resetFlags [] 0xE0D10012#32).passes = true ∧
      (before resetFlags [] 0xE0D10012#32).fetch &&& 0x0FE00010#32 = 0x00C00010#32) ∧
    condPass .cs State.reset.nzcv = true ∧ condPass .cc (State.reset.setNzcv (nzcv 0 0 0 0)).nzcv = true := by decide
theorem witness_CmpFollowsItsRule :
    0xE3500102#32 &&& 0x0FE00000#32 = 0x03400000#32 ∧ 0xE140F001#32 &&& 0x0FE00010#32 = 0x01400000#32 ∧
    ((before resetFlags [] 0xE1500011#32).passes = true ∧
      (before resetFlags [] 0xE1500011#32).fetch &&& 0x0FE00010#32 = 0x01400010#32) ∧
    condPass .al State.reset.nzcv = true := by decide
theorem witness_MovFollowsItsRule :
    0xE3B004FF#32 &&& 0x0FE00000#32 = 0x03A00000#32 ∧ 0xE1AF1000#32 &&& 0x0FE00010#32 = 0x01A00000#32 ∧
    ((before resetFlags [] 0xE1A00011#32).passes = true ∧
      (before resetFlags [] 0xE1A00011#32).fetch &&& 0x0FE00010#32 = 0x01A00010#32) ∧
    condPass .al State.reset.nzcv = true := by decide
theorem witness_BranchFollowsItsRule :
    0xEAFFFFFE#32 &&& 0x0F000000#32 = 0x0A000000#32 ∧ condPass .al State.reset.nzcv = true := by decide
theorem witness_BranchLinkFollowsItsRule :
    0xEB000001#32 &&& 0x0F000000#32 = 0x0B000000#32 ∧ condPass .al State.reset.nzcv = true := by decide
theorem witness_BranchKeepsTheAlignmentOfThePc :
    condPass .al State.reset.nzcv = true ∧ (Instr.b .al 0x800000#24 = .b .al 0x800000#24) ∧
    (Instr.bl .al 0x7FFFFF#24 = .bl .al 0x7FFFFF#24) := by decide
theorem witness_LinkedCallReturnsAfterTheCall : ∃ t : State,
    condPass .al State.reset.nzcv = true ∧ exec (.bl .al 1#24) State.reset = .next t ∧
    t.readReg 14 = t.readReg 14 ∧ condPass .al t.nzcv = true := by
  obtain ⟨t, h⟩ := next_of (r := exec (.bl .al 1#24) State.reset) (by decide)
  exact ⟨t, by decide, h, rfl, rfl⟩
theorem witness_BranchToItselfRunsForever :
    (before resetFlags [] 0xEAFFFFFE#32).fetch &&& 0x0FFFFFFF#32 = 0x0AFFFFFE#32 ∧
    (before resetFlags [] 0xEAFFFFFE#32).passes = true := by decide
theorem witness_ArithmeticLawsRelateTheInstructions :
    State.reset.flag .c = true ∧ (State.reset.setFlag .c false).flag .c = false := by decide
theorem witness_InstructionsChangeOnlyWhatTheyName :
    (∃ t, exec (.movImm .al false 1 0x0#4 0x20#8) State.reset = .next t) ∧
    ((13 : Reg) ≠ 15 ∧ (Instr.movImm .al false 1 0x0#4 0x20#8).dest? ≠ some 13) ∧
    (Instr.movImm .al false 1 0x0#4 0x20#8).setsFlags = false ∧
    (Instr.movImm .al false 1 0x0#4 0x20#8).pattern = 0x03A00000#32 ∧
    ((14 : Reg) ≠ 15 ∧ (Instr.b .al 1#24).dest? ≠ some 14 ∧ (Instr.b .al 1#24).pattern ≠ 0x0B000000#32) :=
  ⟨next_of (by decide), by decide⟩
theorem witness_OnlyNamedInstructionsTransferControl :
    ∃ t, step (before resetFlags [] 0xEB000001#32) = .next t := next_of (by decide)
theorem witness_StepsNeverTouchMemoryOrMode :
    ∃ t, step (before resetFlags [] 0xE0510002#32) = .next t := next_of (by decide)
theorem witness_StepKeepsTheInvariant :
    (before resetFlags [] 0xE2810020#32).inv = true ∧ ∃ t, step (before resetFlags [] 0xE2810020#32) = .next t :=
  ⟨by decide, next_of (by decide)⟩
theorem witness_OperationsKeepTheInvariant : m7.inv = true := by decide
theorem witness_ReachableStatesMeetTheInvariant :
    m7.inv = true ∧ (m7.writeReg 0 1).inv = true ∧ m7.romLen = (m7.writeReg 0 1).romLen ∧ m7.mem = (m7.writeReg 0 1).mem := by
  decide

end Sys2Proof.Tests
end

namespace Sys2Proof.Laws

theorem bitAt_of_le (w : Word) {i : Nat} (hi : i ≤ 31) : bitAt w i = some (w.getLsbD i) := if_pos hi

theorem toNat_field (w : Word) (lo len : Nat) : (field w lo len).toNat = (w.toNat >>> lo) % 2 ^ len :=
  BitVec.extractLsb'_toNat lo len w

/-- Over a range that is not inverted, `bits` is the slice of the same low end and length. -/
theorem bits_of_le (w : Word) {lo hi : Nat} (h : lo ≤ hi) :
    bits w lo hi = some (field w lo (hi - lo + 1)).toNat := by
  rw [bits, if_neg (Nat.not_lt.mpr h), toNat_field, Nat.one_shiftLeft, Nat.and_two_pow_sub_one_eq_mod]

/-- The slice of length one is the bit at that position. -/
theorem field_one (w : Word) (i : Nat) : field w i 1 = BitVec.ofBool (w.getLsbD i) := by
  apply BitVec.eq_of_getLsbD_eq
  intro j hj
  obtain rfl : j = 0 := by omega
  simp [field]

end Sys2Proof.Laws

section
open Sys2Proof Sys2Proof.Laws

/-- Settles O7: `bits` over a range in order is the slice (R8), and a single bit is the slice of length one. -/
theorem fieldsAreBitSlices : Obligations.FieldsAreBitSlices := by
  refine ⟨fun w lo len hlen _ => ?_, fun w i hi => ⟨bitAt_of_le w hi, ?_⟩⟩
  · have length_eq : lo + len - 1 - lo + 1 = len := by omega
    rw [bits_of_le w (by omega), length_eq]
  · rw [bits_of_le w le_rfl, Nat.sub_self, field_one, BitVec.toNat_ofBool]

end

section
open Sys2Proof Sys2Proof.Machine

/-- Settles O8: the written slot reads back the value, any other slot its old content (R21), and the status register
is a field the write does not reach. -/
theorem registerWriteTouchesOneSlot : Obligations.RegisterWriteTouchesOneSlot := by
  intro s i j v
  refine ⟨?_, writeReg_cpsr s i v⟩
  by_cases h : j = i
  · rw [if_pos h, h, readReg_writeReg_same]
  · rw [if_neg h, readReg_writeReg_ne s v h]

end

namespace Sys2Proof.Machine

/-- The addresses of each region, with inclusive bounds as R52 and R55 list them. -/
def Region.Covers : Region → Nat → Prop
  | .ewram, n => 0x02000000 ≤ n ∧ n ≤ 0x0203FFFF
  | .iwram, n => 0x03000000 ≤ n ∧ n ≤ 0x03007FFF
  | .rom, n => 0x08000000 ≤ n ∧ n ≤ 0x0DFFFFFF
  | .unmapped, n => n < 0x02000000 ∨ (0x02040000 ≤ n ∧ n ≤ 0x02FFFFFF) ∨
      (0x03008000 ≤ n ∧ n ≤ 0x07FFFFFF) ∨ 0x0E000000 ≤ n

/-- The lookup's answer covers the address: each test it passes, or the three it fails, is that region's range. -/
theorem region_covers (a : Word) : (region a).Covers a.toNat := by
  simp only [region, Config.ewramBase, Config.ewramSize, Config.iwramBase, Config.iwramSize, Config.romBase,
    Config.romWindow]
  split_ifs with hewram hiwram hrom <;> simp only [Region.Covers] <;> omega

/-- The ranges are disjoint (R52), so the order of the lookup's tests does not matter. -/
theorem Region.Covers.unique {q r : Region} {n : Nat} (hq : q.Covers n) (hr : r.Covers n) : q = r := by
  cases q <;> cases r <;> simp only [Region.Covers, reduceCtorEq] at hq hr ⊢ <;> omega

/-- An address is in a region exactly when it lies in the region's range (R52, R55). -/
theorem region_eq_iff (a : Word) (r : Region) : region a = r ↔ r.Covers a.toNat :=
  ⟨fun h => h ▸ region_covers a, (region_covers a).unique⟩

theorem regionOffset_of_region {a : Word} {r : Region} (h : region a = r) : regionOffset a = a.toNat - r.base := by
  rw [regionOffset, h]

theorem backed_of_unmapped (s : State) {a : Word} (h : region a = .unmapped) : s.backed a = false := by
  rw [State.backed, h]

/-- Where there is no backing a byte read gives zero (R55, R56). -/
theorem readByte_of_not_backed {s : State} {a : Word} (h : s.backed a = false) : s.readByte a = 0#8 := by
  rw [State.readByte, h, if_neg Bool.false_ne_true]

/-- Where there is no backing a byte write is discarded (R55, R56). -/
theorem writeByte_of_not_backed {s : State} {a : Word} (h : s.backed a = false) (v : Byte) : s.writeByte a v = s := by
  rw [State.writeByte, h, if_neg Bool.false_ne_true]

end Sys2Proof.Machine

section
open Sys2Proof Sys2Proof.Machine

/-- Settles O12: the lookup answers a region exactly over its range (R52), and the offset is counted from the base of
the region it answers. -/
theorem regionLookupFollowsTheTable : Obligations.RegionLookupFollowsTheTable := fun a =>
  ⟨region_eq_iff a .ewram, region_eq_iff a .iwram, region_eq_iff a .rom,
    regionOffset_of_region, regionOffset_of_region, regionOffset_of_region⟩

/-- Settles O14: the Unmapped range is the complement R55 lists, and an Unmapped address has no backing, so its byte
reads zero and a write to it leaves the state as it is. -/
theorem unmappedReadsZeroAndDropsWrites : Obligations.UnmappedReadsZeroAndDropsWrites := by
  intro s a v
  refine ⟨region_eq_iff a .unmapped, fun h => ?_⟩
  have not_backed := backed_of_unmapped s h
  have reads_zero := readByte_of_not_backed not_backed
  have write_dropped := writeByte_of_not_backed not_backed v
  exact ⟨reads_zero, write_dropped, by rw [write_dropped, reads_zero]⟩

end

namespace Sys2Proof.Machine

/-- Result and carry are the low 32 bits and bit 32 of the exact unsigned sum, which is below 2^33. -/
theorem addWithCarry_toNat (a b : Word) (cin : Bool) :
    (addWithCarry a b cin).result.toNat + 2 ^ 32 * (addWithCarry a b cin).carry.toNat
      = a.toNat + b.toNat + cin.toNat := by
  have ha := a.isLt
  have hb := b.isLt
  have hcin := cin.toNat_le
  simp only [addWithCarry, BitVec.toNat_ofNat]
  by_cases carries : 2 ^ 32 ≤ a.toNat + b.toNat + cin.toNat
  · rw [decide_eq_true carries, Bool.toNat_true]
    omega
  · rw [decide_eq_false carries, Bool.toNat_false]
    omega

theorem addWithCarry_carry_iff (a b : Word) (cin : Bool) :
    (addWithCarry a b cin).carry = true ↔ 2 ^ 32 ≤ a.toNat + b.toNat + cin.toNat := decide_eq_true_iff

theorem addWithCarry_overflow_eq_false_iff (a b : Word) (cin : Bool) :
    (addWithCarry a b cin).overflow = false ↔
      (addWithCarry a b cin).result.toInt = a.toInt + b.toInt + (cin.toNat : Int) :=
  decide_eq_false_iff_not.trans Decidable.not_not

/-- As a word, the result is the wrapping sum. -/
theorem addWithCarry_result (a b : Word) (cin : Bool) :
    (addWithCarry a b cin).result = a + b + (if cin then 1#32 else 0#32) := by
  cases cin <;> simp [addWithCarry, BitVec.ofNat_add]

/-- Adding the complement subtracts, less one when the carry-in is clear: NOT b is -b - 1. -/
theorem addWithCarry_not_result (a b : Word) (c : Bool) :
    (addWithCarry a (~~~b) c).result = a - b - (if c then 0#32 else 1#32) := by
  have complement : ~~~b = -b - 1#32 := by rw [BitVec.neg_eq_not_add, BitVec.add_sub_cancel]
  rw [addWithCarry_result, complement]
  cases c with
  | false =>
    calc a + (-b - 1#32) + 0#32
      _ = a + (-b - 1#32) := BitVec.add_zero _
      _ = a - b - 1#32 := by ring
  | true =>
    calc a + (-b - 1#32) + 1#32
      _ = a - b := by ring
      _ = a - b - 0#32 := (BitVec.sub_zero _).symm

/-- The carry of a subtraction is the absence of a borrow, as NOT b counts 2^32 - 1 - b. -/
theorem addWithCarry_not_carry_iff (a b : Word) (c : Bool) :
    (addWithCarry a (~~~b) c).carry = true ↔ b.toNat + (if c then 0 else 1) ≤ a.toNat := by
  have hb := b.isLt
  rw [addWithCarry_carry_iff, BitVec.toNat_not]
  cases c with
  | false =>
    simp only [Bool.toNat_false, Bool.false_eq_true, if_false]
    omega
  | true =>
    simp only [Bool.toNat_true, if_true]
    omega

end Sys2Proof.Machine

section
open Sys2Proof Sys2Proof.Machine

/-- Settles O33: the sums of R150 for every carry-in, and subtraction as the sum with the complement; `a - b` is the
form with carry-in 1, whose last term is zero. -/
theorem adderIsExactThenNarrowed : Obligations.AdderIsExactThenNarrowed := by
  refine ⟨fun a b cin => ⟨addWithCarry_toNat a b cin, addWithCarry_overflow_eq_false_iff a b cin⟩,
    fun a b => ⟨?_, addWithCarry_not_carry_iff a b true⟩,
    fun a b c => ⟨addWithCarry_not_result a b c, addWithCarry_not_carry_iff a b c⟩⟩
  calc (addWithCarry a (~~~b) true).result
      = a - b - 0#32 := addWithCarry_not_result a b true
    _ = a - b := BitVec.sub_zero _

end

namespace Sys2Proof.Machine

/-! ### What an instruction does when its condition passes -/

/-- The state an instruction leaves when its condition passes (42 R155 to R160, 43 R182, R183). -/
def effect (i : Instr) (s : State) : State :=
  match i with
  | .subImm _ sf rn rd r b => s.writeBack sf rd (addWithCarry (s.operandReg rn) (~~~(s.operand2 (.imm r b)).1) true)
  | .subReg _ sf rn rd sh m => s.writeBack sf rd (addWithCarry (s.operandReg rn) (~~~(s.operand2 (.reg sh m)).1) true)
  | .addImm _ sf rn rd r b => s.writeBack sf rd (addWithCarry (s.operandReg rn) (s.operand2 (.imm r b)).1 false)
  | .addReg _ sf rn rd sh m => s.writeBack sf rd (addWithCarry (s.operandReg rn) (s.operand2 (.reg sh m)).1 false)
  | .adcImm _ sf rn rd r b =>
    s.writeBack sf rd (addWithCarry (s.operandReg rn) (s.operand2 (.imm r b)).1 (s.flag .c))
  | .adcReg _ sf rn rd sh m =>
    s.writeBack sf rd (addWithCarry (s.operandReg rn) (s.operand2 (.reg sh m)).1 (s.flag .c))
  | .sbcImm _ sf rn rd r b =>
    s.writeBack sf rd (addWithCarry (s.operandReg rn) (~~~(s.operand2 (.imm r b)).1) (s.flag .c))
  | .sbcReg _ sf rn rd sh m =>
    s.writeBack sf rd (addWithCarry (s.operandReg rn) (~~~(s.operand2 (.reg sh m)).1) (s.flag .c))
  | .cmpImm _ rn r b => s.compareBack (addWithCarry (s.operandReg rn) (~~~(s.operand2 (.imm r b)).1) true)
  | .cmpReg _ rn sh m => s.compareBack (addWithCarry (s.operandReg rn) (~~~(s.operand2 (.reg sh m)).1) true)
  | .movImm _ sf rd r b => s.writeBack sf rd ⟨(s.operand2 (.imm r b)).1, (s.operand2 (.imm r b)).2, s.flag .v⟩
  | .movReg _ sf rd sh m => s.writeBack sf rd ⟨(s.operand2 (.reg sh m)).1, (s.operand2 (.reg sh m)).2, s.flag .v⟩
  | .b _ imm24 => s.setPc (branchTarget s.pc imm24)
  | .bl _ imm24 => (s.writeReg 14 s.nextPc).setPc (branchTarget s.pc imm24)

/-- Every instruction is its effect behind the condition gate. -/
theorem exec_eq_whenPassed (i : Instr) (s : State) : exec i s = whenPassed i.cond s (effect i s) := by
  cases i <;> rfl

theorem exec_of_pass {i : Instr} {s : State} (h : condPass i.cond s.nzcv = true) :
    exec i s = .next (effect i s) := by
  rw [exec_eq_whenPassed, whenPassed_pass h]

theorem exec_of_fail {i : Instr} {s : State} (h : condPass i.cond s.nzcv = false) : exec i s = .next s.advance := by
  rw [exec_eq_whenPassed, whenPassed_fail h]

/-- An instruction goes on: to its effect, or to the skip. -/
theorem exec_cases {i : Instr} {s t : State} (h : exec i s = .next t) : t = effect i s ∨ t = s.advance := by
  rw [exec_eq_whenPassed] at h
  obtain ⟨_, rfl⟩ | ⟨_, rfl⟩ := whenPassed_cases h
  · exact .inl rfl
  · exact .inr rfl

/-- What B and BL do (43 R180 to R183); `link` says which of the two. -/
theorem branched_setPc (s : State) (link : Bool) (target : Word) :
    Branched s ((if link then s.writeReg 14 s.nextPc else s).setPc target) link target where
  pc := pc_setPc _ _
  linkReg := by cases link <;> simp [readReg_setPc_ne]
  others i h14 h15 := by cases link <;> simp [readReg_setPc_ne _ _ h15, readReg_writeReg_ne _ _ h14]
  flags := by cases link <;> rfl
  inert := by cases link <;> exact sameInert_of rfl rfl rfl rfl rfl

/-- The three shapes an effect can have: a result written back to the destination (V kept by MOV), a compare, or a
branch, with a link for BL alone. -/
theorem effect_cases (i : Instr) (s : State) :
    (∃ (rd : Reg) (out : AluOut), i.dest? = some rd ∧ WroteResult s (effect i s) i.setsFlags rd out.result out.flags ∧
      (i.pattern = 0x03A00000#32 ∨ i.pattern = 0x01A00000#32 → out.overflow = s.flag .v)) ∨
    (∃ out : AluOut, i.setsFlags = true ∧ ¬ (i.pattern = 0x03A00000#32 ∨ i.pattern = 0x01A00000#32) ∧
      Compared s (effect i s) out.flags) ∨
    (∃ (link : Bool) (target : Word), i.setsFlags = false ∧
      i.pattern = (if link then 0x0B000000#32 else 0x0A000000#32) ∧ Branched s (effect i s) link target) := by
  cases i
  case cmpImm | cmpReg => exact .inr (.inl ⟨_, rfl, by simp [Instr.pattern], compared_compareBack s _⟩)
  case b => exact .inr (.inr ⟨false, _, rfl, rfl, branched_setPc s false _⟩)
  case bl => exact .inr (.inr ⟨true, _, rfl, rfl, branched_setPc s true _⟩)
  case movImm | movReg => exact .inl ⟨_, _, rfl, wroteResult_writeBack s _ _ _, fun _ => rfl⟩
  all_goals exact .inl ⟨_, _, rfl, wroteResult_writeBack s _ _ _, by simp [Instr.pattern]⟩

theorem effect_sameInert (i : Instr) (s : State) : SameInert s (effect i s) := by
  obtain ⟨_, _, _, wrote, _⟩ | ⟨_, _, _, compared⟩ | ⟨_, _, _, _, branched⟩ := effect_cases i s
  · exact wrote.inert
  · exact compared.inert
  · exact branched.inert

theorem exec_sameInert {i : Instr} {s t : State} (h : exec i s = .next t) : SameInert s t := by
  obtain rfl | rfl := exec_cases h
  · exact effect_sameInert i s
  · exact (skipped_advance s).inert

theorem exec_completes (i : Instr) (s : State) : ∃ t, exec i s = .next t := by
  cases h : condPass i.cond s.nzcv
  · exact ⟨_, exec_of_fail h⟩
  · exact ⟨_, exec_of_pass h⟩

/-- A step that goes on skips, or has the effect of the decoded instruction or its skip. -/
theorem step_next_cases {s t : State} (h : step s = .next t) :
    t = s.advance ∨ s.passes = true ∧ ∃ i, decode s.fetch = .ok i ∧ t = effect i s := by
  obtain ⟨_, hstep⟩ | ⟨hp, i, hi, hstep⟩ | ⟨_, _, _, hstep⟩ := step_cases s <;> rw [hstep] at h
  · cases h
    exact .inl rfl
  · obtain rfl | rfl := exec_cases h
    · exact .inr ⟨hp, i, hi, rfl⟩
    · exact .inl rfl
  · cases h

theorem step_sameInert {s t : State} (h : step s = .next t) : SameInert s t := by
  obtain rfl | ⟨_, i, _, rfl⟩ := step_next_cases h
  · exact (skipped_advance s).inert
  · exact effect_sameInert i s

/-- When the condition of the fetched word fails the step is the skip (40 R114). -/
theorem step_of_fail {s : State} (h : s.passes = false) : step s = .next s.advance := by
  obtain ⟨_, hstep⟩ | ⟨hp, _⟩ | ⟨hp, _⟩ := step_cases s
  · exact hstep
  all_goals simp [h] at hp

/-- The step operation of the interface when the step faults: no state changes (60 R213). -/
theorem apply_step_of_fault {s : State} {f : Fault} (h : step s = .fault f) :
    CoreOp.step.apply s = (s, .fault f) := by
  simp only [CoreOp.apply, h]

/-! ### The invariant -/

theorem inv_iff (s : State) : s.inv = true ↔ s.mem.wf = true ∧ (∀ cell ∈ s.mem, s.ownsKey cell.1 = true) ∧
    s.cpsr.extractLsb' 0 28 = 0x0000010#28 ∧ s.saved = State.reset.saved ∧ s.vram = [] := by
  simp only [State.inv, Bool.and_eq_true, List.all_eq_true, beq_iff_eq, decide_eq_true_eq, and_assoc]

theorem ownsKey_iff (s : State) (k : Nat) : s.ownsKey k = true ↔
    (0x02000000 ≤ k ∧ k < 0x02040000) ∨ (0x03000000 ≤ k ∧ k < 0x03008000) ∨
      (0x08000000 ≤ k ∧ k < 0x08000000 + s.romLen) := by
  simp only [State.ownsKey, Bool.or_eq_true, decide_eq_true_eq, or_assoc]
  exact Iff.rfl

theorem ownsKey_congr {s t : State} (h : t.romLen = s.romLen) (k : Nat) : t.ownsKey k = s.ownsKey k := by
  rw [State.ownsKey, State.ownsKey, h]

/-- The invariant speaks of nothing but the inert part of the state and memory. -/
theorem inv_of_sameInert {s t : State} (same : SameInert s t) (h : s.inv = true) : t.inv = true := by
  rw [inv_iff] at h ⊢
  simpa only [same.mem, same.statusLow, same.saved, same.vram, ownsKey_congr same.romLen] using h

theorem inv_reset : State.reset.inv = true := by decide

/-- A byte with backing has a key that exists (20 R51, R56). -/
theorem ownsKey_of_backed {s : State} {a : Word} (h : s.backed a = true) : s.ownsKey a.toNat = true := by
  have covers := region_covers a
  rw [ownsKey_iff]
  cases hr : region a <;> simp only [hr, Region.Covers] at covers
  case ewram => omega
  case iwram => omega
  case rom =>
    have below : a.toNat - 0x08000000 < s.romLen := by
      simpa [State.backed, hr, regionOffset, Region.base] using h
    omega
  case unmapped => simp [backed_of_unmapped s hr] at h

/-- A byte write keeps the invariant: the one cell it can add lies at a key with backing. -/
theorem inv_writeByte {s : State} (h : s.inv = true) (a : Word) (v : Byte) : (s.writeByte a v).inv = true := by
  cases hb : s.backed a
  · rwa [writeByte_of_not_backed hb]
  · rw [inv_iff] at h ⊢
    obtain ⟨wf, owned, cpsr, saved, vram⟩ := h
    refine ⟨wf_writeByte wf a v, fun cell hcell => ?_, by simpa using cpsr, by simpa using saved, by simpa using vram⟩
    rw [ownsKey_congr (writeByte_romLen s a v)]
    have written : (s.writeByte a v).mem = s.mem.write a.toNat v := by rw [State.writeByte, if_pos hb]
    rw [written] at hcell
    obtain old | key := mem_write hcell
    · exact owned cell old
    · exact key ▸ ownsKey_of_backed hb

theorem inv_writeWord {s : State} (h : s.inv = true) (a v : Word) : (s.writeWord a v).inv = true := by
  rw [writeWord_eq]
  exact inv_writeByte (inv_writeByte (inv_writeByte (inv_writeByte h _ _) _ _) _ _) _ _

/-- Loading an image keeps the invariant: the RAM cells stay owned, the new ones are the image's. -/
theorem inv_loadImage {s : State} (h : s.inv = true) (image : List Byte) : (s.loadImage image).inv = true := by
  rw [inv_iff] at h ⊢
  obtain ⟨wf, owned, inert⟩ := h
  refine ⟨wf_loadImage wf image, fun cell hcell => ?_, inert⟩
  rw [ownsKey_iff, loadImage_romLen]
  obtain kept | laid := List.mem_append.1 hcell
  · obtain ⟨old, below⟩ := List.mem_filter.1 kept
    have key := (ownsKey_iff s _).1 (owned cell old)
    simp only [Config.romBase, decide_eq_true_eq] at below
    omega
  · have key := mem_layFrom laid
    simp only [Config.romBase] at key
    omega

theorem inv_apply (op : CoreOp) {s : State} (h : s.inv = true) : (op.apply s).1.inv = true := by
  cases op with
  | reset => exact inv_reset
  | loadImage source =>
    cases source with
    | none => exact h
    | some image => exact inv_loadImage h image
  | step =>
    cases hstep : step s with
    | next t => simpa only [CoreOp.apply, hstep] using inv_of_sameInert (step_sameInert hstep) h
    | fault f => rwa [apply_step_of_fault hstep]
    | refused r => simpa only [CoreOp.apply, hstep] using h
  | writeByte a v => exact inv_writeByte h a v
  | writeWord a v => exact inv_writeWord h a v
  | readRegister | readFlag | readByte | readWord => exact h

theorem inv_applyAll (ops : List CoreOp) : ∀ {s : State}, s.inv = true → (applyAll ops s).inv = true := by
  induction ops with
  | nil => exact id
  | cons op ops ih => exact fun h => ih (inv_apply op h)

/-- The canonical form of a list, by its first cell. -/
theorem risingFrom_cons {lo k : Nat} {b : Byte} {m : Memory} :
    Memory.risingFrom lo ((k, b) :: m) = true ↔ lo ≤ k ∧ b ≠ unlistedByte ∧ m.risingFrom (k + 1) = true := by
  simp [Memory.risingFrom, and_assoc]

@[simp] theorem read_cons_same (k : Nat) (b : Byte) (m : Memory) : Memory.read ((k, b) :: m) k = b := if_pos rfl

theorem read_cons_ne {k a : Nat} (h : k ≠ a) (b : Byte) (m : Memory) : Memory.read ((k, b) :: m) a = m.read a :=
  if_neg h

/-- A canonical list is determined by what it reads (log 19): its first key is the least one that is listed. -/
theorem eq_of_read_eq : ∀ {m n : Memory} {lo lo' : Nat}, m.risingFrom lo = true → n.risingFrom lo' = true →
    (∀ k, m.read k = n.read k) → m = n
  | [], [], _, _, _, _, _ => rfl
  | [], (k, b) :: n, _, _, _, hn, same =>
    absurd ((same k).trans (read_cons_same k b n)).symm (risingFrom_cons.1 hn).2.1
  | (k, b) :: m, [], _, _, hm, _, same =>
    absurd ((read_cons_same k b m).symm.trans (same k)) (risingFrom_cons.1 hm).2.1
  | (k, b) :: m, (k', b') :: n, _, _, hm, hn, same => by
    obtain ⟨_, listed, hm_tail⟩ := risingFrom_cons.1 hm
    obtain ⟨_, listed', hn_tail⟩ := risingFrom_cons.1 hn
    have head : Memory.read ((k, b) :: m) k = Memory.read ((k', b') :: n) k := same k
    have head' : Memory.read ((k, b) :: m) k' = Memory.read ((k', b') :: n) k' := same k'
    obtain below | rfl | above := Nat.lt_trichotomy k k'
    · rw [read_cons_same, read_cons_ne (by omega), read_below hn_tail (by omega)] at head
      exact absurd head listed
    · obtain rfl : b = b' := by simpa using head
      have tails : ∀ a, Memory.read m a = Memory.read n a := fun a => by
        by_cases ha : k = a
        · rw [read_below hm_tail (a := a) (by omega), read_below hn_tail (a := a) (by omega)]
        · simpa only [read_cons_ne ha] using same a
      rw [eq_of_read_eq hm_tail hn_tail tails]
    · rw [read_cons_same, read_cons_ne (by omega), read_below hm_tail (by omega)] at head'
      exact absurd head'.symm listed'

end Sys2Proof.Machine

section
open Sys2Proof Sys2Proof.Machine

/-- Settles O55: the invariant of the reset state is a closed Boolean. -/
theorem invariantHoldsAtReset : Obligations.InvariantHoldsAtReset := inv_reset

/-- Settles O53: a step that goes on has one of the effects of 40 R119, and each leaves the inert state alone. -/
theorem stepsNeverTouchMemoryOrMode : Obligations.StepsNeverTouchMemoryOrMode := fun _ _ => step_sameInert

/-- Settles O56: the invariant speaks of the inert state and memory alone, and no step touches them. -/
theorem stepKeepsTheInvariant : Obligations.StepKeepsTheInvariant :=
  fun _ _ hinv hstep => inv_of_sameInert (step_sameInert hstep) hinv

/-- Settles O57, by cases on the operation. -/
theorem operationsKeepTheInvariant : Obligations.OperationsKeepTheInvariant := fun op _ => inv_apply op

/-- Settles O58, by induction on the operations from reset, and by the canonical form's being determined by its
reads. -/
theorem reachableStatesMeetTheInvariant : Obligations.ReachableStatesMeetTheInvariant := by
  refine ⟨fun ops => inv_applyAll ops inv_reset, fun s t hs ht _ same => ?_⟩
  exact eq_of_read_eq ((inv_iff s).1 hs).1 ((inv_iff t).1 ht).1 same

/-- Settles O50: whether its condition passes or not, an instruction answers a next state. -/
theorem everyInstructionCompletes : Obligations.EveryInstructionCompletes := exec_completes

/-- Settles O24: a failed condition is the generic advance, in the step and in `exec`. -/
theorem failedConditionSkips : Obligations.FailedConditionSkips :=
  ⟨fun s h => ⟨s.advance, step_of_fail h, skipped_advance s⟩,
    fun _ s h => ⟨s.advance, exec_of_fail h, skipped_advance s⟩⟩

/-- Settles O25: condition number 1111 is NV, which passes under no flags. -/
theorem neverConditionSkipsEveryWord : Obligations.NeverConditionSkipsEveryWord := by
  intro s h
  have never : condField s.fetch = .nv := by
    rw [condField, field, h]
    rfl
  have fails : s.passes = false := by
    rw [State.passes, never]
    rfl
  exact ⟨s.advance, step_of_fail fails, skipped_advance s⟩

/-- Settles O30: the operation of a faulting step answers the state it was given. -/
theorem faultChangesNothingAndRecurs : Obligations.FaultChangesNothingAndRecurs := by
  intro s f h
  have same := apply_step_of_fault h
  simp only [same, and_self]

/-- Settles O51, by the three shapes of effect and the skip. -/
theorem instructionsChangeOnlyWhatTheyName : Obligations.InstructionsChangeOnlyWhatTheyName := by
  intro i s t h
  refine and_assoc.1 (and_assoc.1 ⟨?_, exec_sameInert h⟩)
  obtain rfl | rfl := exec_cases h
  · obtain ⟨rd, out, hrd, wrote, keepsV⟩ | ⟨out, sets, notMov, compared⟩ | ⟨link, target, _, hpat, branched⟩ :=
      effect_cases i s
    · refine ⟨⟨fun r h15 hr _ => wrote.others r (fun e => hr (e ▸ hrd)) h15, fun hs => ?_⟩, fun hmov => ?_⟩
      · rw [wrote.flags, hs, if_neg Bool.false_ne_true]
      · have flags := wrote.flags
        cases hs : i.setsFlags <;> rw [hs] at flags
        · exact congrArg Nzcv.v flags
        · exact (congrArg Nzcv.v flags).trans (keepsV hmov)
    · exact ⟨⟨fun r h15 _ _ => compared.registers r h15, fun hs => by simp [sets] at hs⟩,
        fun hmov => absurd hmov notMov⟩
    · refine ⟨⟨fun r h15 _ hlink => ?_, fun _ => branched.flags⟩, fun _ => congrArg Nzcv.v branched.flags⟩
      by_cases h14 : r = 14
      · subst h14
        cases link
        · exact branched.linkReg
        · exact absurd hpat (hlink rfl)
      · exact branched.others r h14 h15
  · have skipped := skipped_advance s
    exact ⟨⟨fun r h15 _ _ => skipped.registers r h15, fun _ => skipped.flags⟩, fun _ => congrArg Nzcv.v skipped.flags⟩

/-- Settles O52: only the effect of a branch or of a write to r15 moves the program counter elsewhere than to A + 4. -/
theorem onlyNamedInstructionsTransferControl : Obligations.OnlyNamedInstructionsTransferControl := by
  intro s t h
  obtain rfl | ⟨hp, i, hi, rfl⟩ := step_next_cases h
  · exact .inl (skipped_advance s).pc
  obtain ⟨rd, out, hrd, wrote, _⟩ | ⟨_, _, _, compared⟩ | ⟨link, _, _, hpat, _⟩ := effect_cases i s
  · by_cases h15 : rd = 15
    · exact .inr ⟨hp, i, hi, .inr (.inr (h15 ▸ hrd))⟩
    · exact .inl (wrote.pc h15)
  · exact .inl compared.pc
  · refine .inr ⟨hp, i, hi, ?_⟩
    cases link
    · exact .inl hpat
    · exact .inr (.inl hpat)

end

namespace Sys2Proof

/-! ### A word as its fields -/

/-- Equal concatenations have equal parts. -/
theorem append_eq_append_iff {v u : Nat} {x x' : BitVec v} {y y' : BitVec u} :
    x ++ y = x' ++ y' ↔ x = x' ∧ y = y' := by
  refine ⟨fun h => ⟨?_, ?_⟩, fun ⟨hx, hy⟩ => hx ▸ hy ▸ rfl⟩
  · simpa only [BitVec.extractLsb'_append_eq_left] using congrArg (BitVec.extractLsb' u v) h
  · simpa only [BitVec.extractLsb'_append_eq_right] using congrArg (BitVec.extractLsb' 0 u) h

@[simp] theorem field_and (w m : Word) (lo len : Nat) : field (w &&& m) lo len = field w lo len &&& field m lo len :=
  BitVec.extractLsb'_and

@[simp] theorem field_or (w m : Word) (lo len : Nat) : field (w ||| m) lo len = field w lo len ||| field m lo len :=
  BitVec.extractLsb'_or

theorem field_one_eq_ofBool_iff (w : Word) (i : Nat) (b : Bool) :
    field w i 1 = BitVec.ofBool b ↔ w.getLsbD i = b := by
  rw [Laws.field_one]
  cases b <;> cases w.getLsbD i <;> decide

theorem field_four_eq_ofFin_iff (w : Word) (lo : Nat) (r : Reg) :
    field w lo 4 = BitVec.ofFin (w := 4) r ↔ regField w lo = r :=
  ⟨fun h => congrArg BitVec.toFin h, fun h => congrArg BitVec.ofFin h⟩

/-- The fields of format DPI, from the top (R82). -/
theorem eq_immFields (w : Word) : w = field w 28 4 ++ field w 25 3 ++ field w 21 4 ++ field w 20 1 ++ field w 16 4 ++
    field w 12 4 ++ field w 8 4 ++ field w 0 8 := by
  simp only [field, BitVec.extractLsb'_append_extractLsb'_eq_extractLsb', BitVec.extractLsb'_eq_self]

/-- The fields of format DPR, from the top (R82, R83). -/
theorem eq_regFields (w : Word) : w = field w 28 4 ++ field w 25 3 ++ field w 21 4 ++ field w 20 1 ++ field w 16 4 ++
    field w 12 4 ++ field w 7 5 ++ field w 5 2 ++ field w 4 1 ++ field w 0 4 := by
  simp only [field, BitVec.extractLsb'_append_extractLsb'_eq_extractLsb', BitVec.extractLsb'_eq_self]

/-- The fields of format BR, from the top (R85). -/
theorem eq_branchFields (w : Word) : w = field w 28 4 ++ field w 25 3 ++ field w 24 1 ++ field w 0 24 := by
  simp only [field, BitVec.extractLsb'_append_extractLsb'_eq_extractLsb', BitVec.extractLsb'_eq_self]

/-- A word is the encoding of these operands exactly when its fields are theirs: format DPI. -/
theorem eq_encodeImm_iff (w : Word) (c : Cond) (op : DpOp) (s : Bool) (rn rd : Reg) (rotate : BitVec 4)
    (imm8 : BitVec 8) :
    w = encodeImm c op s rn rd rotate imm8 ↔ field w 28 4 = c.bits ∧ field w 25 3 = 0b001#3 ∧ field w 21 4 = op.bits ∧
      field w 20 1 = BitVec.ofBool s ∧ field w 16 4 = BitVec.ofFin (w := 4) rn ∧
      field w 12 4 = BitVec.ofFin (w := 4) rd ∧ field w 8 4 = rotate ∧ field w 0 8 = imm8 := by
  conv_lhs => rw [eq_immFields w, encodeImm]
  change @Eq (BitVec (4 + 3 + 4 + 1 + 4 + 4 + 4 + 8)) _ _ ↔ _
  simp only [append_eq_append_iff, and_assoc]

/-- As `eq_encodeImm_iff`: format DPR. -/
theorem eq_encodeReg_iff (w : Word) (c : Cond) (op : DpOp) (s : Bool) (rn rd : Reg) (sh : Shift) (rm : Reg) :
    w = encodeReg c op s rn rd sh rm ↔ field w 28 4 = c.bits ∧ field w 25 3 = 0b000#3 ∧ field w 21 4 = op.bits ∧
      field w 20 1 = BitVec.ofBool s ∧ field w 16 4 = BitVec.ofFin (w := 4) rn ∧
      field w 12 4 = BitVec.ofFin (w := 4) rd ∧ field w 7 5 = sh.amt5 ∧ field w 5 2 = sh.kind.bits ∧
      field w 4 1 = 0b0#1 ∧ field w 0 4 = BitVec.ofFin (w := 4) rm := by
  conv_lhs => rw [eq_regFields w, encodeReg]
  change @Eq (BitVec (4 + 3 + 4 + 1 + 4 + 4 + 5 + 2 + 1 + 4)) _ _ ↔ _
  simp only [append_eq_append_iff, and_assoc]

/-- As `eq_encodeImm_iff`: format BR. -/
theorem eq_encodeBranch_iff (w : Word) (c : Cond) (link : Bool) (imm24 : BitVec 24) :
    w = encodeBranch c link imm24 ↔ field w 28 4 = c.bits ∧ field w 25 3 = 0b101#3 ∧
      field w 24 1 = BitVec.ofBool link ∧ field w 0 24 = imm24 := by
  conv_lhs => rw [eq_branchFields w, encodeBranch]
  change @Eq (BitVec (4 + 3 + 1 + 24)) _ _ ↔ _
  simp only [append_eq_append_iff, and_assoc]

/-! ### The numbers of conditions, shifts and opcodes -/

@[simp] theorem cond_ofBits_bits (c : Cond) : Cond.ofBits c.bits = c := by cases c <;> rfl

@[simp] theorem cond_bits_ofBits (k : BitVec 4) : (Cond.ofBits k).bits = k := by
  revert k
  decide

@[simp] theorem shiftKind_ofBits_bits (k : ShiftKind) : ShiftKind.ofBits k.bits = k := by cases k <;> rfl

@[simp] theorem shiftKind_bits_ofBits (k : BitVec 2) : (ShiftKind.ofBits k).bits = k := by
  revert k
  decide

theorem ofBits?_eq_some_iff (k : BitVec 4) (op : DpOp) : DpOp.ofBits? k = some op ↔ k = op.bits := by
  revert k
  cases op <;> decide

@[simp] theorem ofBits?_bits (op : DpOp) : DpOp.ofBits? op.bits = some op := (ofBits?_eq_some_iff _ op).2 rfl

@[simp] theorem shift_kind_ofFields (kind : ShiftKind) (amt5 : BitVec 5) : (Shift.ofFields kind amt5).kind = kind := by
  cases kind
  case ror => by_cases h : amt5 = 0#5 <;> simp [Shift.ofFields, Shift.kind, h]
  all_goals rfl

@[simp] theorem shift_amt5_ofFields (kind : ShiftKind) (amt5 : BitVec 5) : (Shift.ofFields kind amt5).amt5 = amt5 := by
  by_cases h : amt5 = 0#5
  · subst h
    cases kind <;> rfl
  · cases kind <;> simp [Shift.ofFields, Shift.amt5, h]

/-- A (type, amount) pair spells a shift in the ranges of R93. -/
theorem shift_wf_ofFields (kind : ShiftKind) (amt5 : BitVec 5) : (Shift.ofFields kind amt5).wf = true := by
  have below := amt5.isLt
  by_cases h : amt5 = 0#5
  · subst h
    cases kind <;> rfl
  · have positive : amt5.toNat ≠ 0 := fun e => h (BitVec.eq_of_toNat_eq e)
    cases kind <;> simp [Shift.ofFields, Shift.wf, h] <;> omega

/-- A shift in the ranges of R93 is the one its fields spell. -/
theorem shift_ofFields_of_wf {sh : Shift} (h : sh.wf = true) : Shift.ofFields sh.kind sh.amt5 = sh := by
  have ofNat_eq_zero : ∀ n : Nat, BitVec.ofNat 5 n = 0#5 ↔ n % 32 = 0 := fun n => by
    rw [← BitVec.toNat_inj, BitVec.toNat_ofNat, BitVec.toNat_ofNat]
  cases sh <;> simp only [Shift.wf, decide_eq_true_eq] at h <;>
    simp only [Shift.kind, Shift.amt5, Shift.ofFields, ofNat_eq_zero, BitVec.toNat_ofNat]
  case lsl n => rw [Nat.mod_eq_of_lt (by omega)]
  case lsr n => split <;> congr 1 <;> omega
  case asr n => split <;> congr 1 <;> omega
  case ror n => rw [if_neg (by omega), Nat.mod_eq_of_lt (by omega)]
  case rrx => rfl

/-! ### What the decoder answers, by the fields it tests -/

theorem bit25_of_imm {w : Word} (hclass : field w 25 3 = 0b001#3) : w.getLsbD 25 = true := by
  simpa [field] using congrArg (·.getLsbD 0) hclass

theorem bit25_of_reg {w : Word} (hclass : field w 25 3 = 0b000#3) : w.getLsbD 25 = false := by
  simpa [field] using congrArg (·.getLsbD 0) hclass

/-- A word of class 000 or 001 goes on to the opcode test (R88). -/
theorem decode_of_dp {w : Word} (hclass : field w 25 3 = 0b000#3 ∨ field w 25 3 = 0b001#3) :
    decode w = decodeDataProcessing w := by
  have not_branch : field w 25 3 ≠ 0b101#3 := by
    obtain h | h := hclass <;> rw [h] <;> decide
  rw [decode, if_neg not_branch, if_pos hclass]

theorem decode_of_imm {w : Word} {op : DpOp} (hclass : field w 25 3 = 0b001#3) (hop : field w 21 4 = op.bits) :
    decode w = .ok (decodeImm op w) := by
  simp only [decode_of_dp (.inr hclass), decodeDataProcessing, hop, ofBits?_bits, bit25_of_imm hclass, if_true]

/-- Format DPR with a supported opcode: the shift-form test decides (R88). -/
theorem decode_of_reg {w : Word} {op : DpOp} (hclass : field w 25 3 = 0b000#3) (hop : field w 21 4 = op.bits) :
    decode w = if w.getLsbD 4 then .error .shiftForm else .ok (decodeReg op w) := by
  simp only [decode_of_dp (.inl hclass), decodeDataProcessing, hop, ofBits?_bits, bit25_of_reg hclass,
    Bool.false_eq_true, if_false]

/-- An unsupported opcode, whatever the other bits (R161). -/
theorem decode_of_opcode {w : Word} (hclass : field w 25 3 = 0b000#3 ∨ field w 25 3 = 0b001#3)
    (hop : DpOp.ofBits? (field w 21 4) = none) : decode w = .error .opcode := by
  simp only [decode_of_dp hclass, decodeDataProcessing, hop]

theorem decode_of_branch {w : Word} (hclass : field w 25 3 = 0b101#3) : decode w = .ok (decodeBranch w) := by
  rw [decode, if_pos hclass]

/-- A word that decodes is of one of the three formats (R88), and its instruction is that format's. -/
theorem decode_ok_cases {w : Word} {i : Instr} (h : decode w = .ok i) :
    (∃ op, field w 25 3 = 0b001#3 ∧ field w 21 4 = op.bits ∧ i = decodeImm op w) ∨
    (∃ op, field w 25 3 = 0b000#3 ∧ field w 21 4 = op.bits ∧ w.getLsbD 4 = false ∧ i = decodeReg op w) ∨
    (field w 25 3 = 0b101#3 ∧ i = decodeBranch w) := by
  by_cases hbranch : field w 25 3 = 0b101#3
  · rw [decode_of_branch hbranch] at h
    cases h
    exact .inr (.inr ⟨hbranch, rfl⟩)
  by_cases hdp : field w 25 3 = 0b000#3 ∨ field w 25 3 = 0b001#3
  · cases hop : DpOp.ofBits? (field w 21 4) with
    | none => simp [decode_of_opcode hdp hop] at h
    | some op =>
      have hop' := (ofBits?_eq_some_iff _ _).1 hop
      obtain hreg | himm := hdp
      · rw [decode_of_reg hreg hop'] at h
        cases hbit4 : w.getLsbD 4 <;> rw [hbit4] at h <;> cases h
        exact .inr (.inl ⟨op, hreg, hop', rfl, rfl⟩)
      · rw [decode_of_imm himm hop'] at h
        cases h
        exact .inl ⟨op, himm, hop', rfl⟩
  · rw [decode, if_neg hbranch, if_neg hdp] at h
    cases h

end Sys2Proof

namespace Sys2Proof

/-! ### Encoding and decoding are inverse -/

/-- The instruction of format DPI with these operands; CMP and MOV leave some of them out (R89). -/
def immInstr (op : DpOp) (c : Cond) (s : Bool) (rn rd : Reg) (rotate : BitVec 4) (imm8 : BitVec 8) : Instr :=
  match op with
  | .sub => .subImm c s rn rd rotate imm8
  | .add => .addImm c s rn rd rotate imm8
  | .adc => .adcImm c s rn rd rotate imm8
  | .sbc => .sbcImm c s rn rd rotate imm8
  | .cmp => .cmpImm c rn rotate imm8
  | .mov => .movImm c s rd rotate imm8

/-- The instruction of format DPR with these operands. -/
def regInstr (op : DpOp) (c : Cond) (s : Bool) (rn rd : Reg) (sh : Shift) (rm : Reg) : Instr :=
  match op with
  | .sub => .subReg c s rn rd sh rm
  | .add => .addReg c s rn rd sh rm
  | .adc => .adcReg c s rn rd sh rm
  | .sbc => .sbcReg c s rn rd sh rm
  | .cmp => .cmpReg c rn sh rm
  | .mov => .movReg c s rd sh rm

theorem decodeImm_eq (op : DpOp) (w : Word) : decodeImm op w =
    immInstr op (condField w) (w.getLsbD 20) (regField w 16) (regField w 12) (field w 8 4) (field w 0 8) := by
  cases op <;> rfl

theorem decodeReg_eq (op : DpOp) (w : Word) : decodeReg op w =
    regInstr op (condField w) (w.getLsbD 20) (regField w 16) (regField w 12) (shiftField w) (regField w 0) := by
  cases op <;> rfl

theorem decode_encodeImm (c : Cond) (op : DpOp) (s : Bool) (rn rd : Reg) (rotate : BitVec 4) (imm8 : BitVec 8) :
    decode (encodeImm c op s rn rd rotate imm8) = .ok (immInstr op c s rn rd rotate imm8) := by
  obtain ⟨hc, hclass, hop, hs, hrn, hrd, hrotate, himm8⟩ := (eq_encodeImm_iff _ c op s rn rd rotate imm8).1 rfl
  rw [field_one_eq_ofBool_iff] at hs
  rw [field_four_eq_ofFin_iff] at hrn hrd
  rw [decode_of_imm hclass hop, decodeImm_eq, condField, hc, cond_ofBits_bits, hs, hrn, hrd, hrotate, himm8]

theorem decode_encodeReg (c : Cond) (op : DpOp) (s : Bool) (rn rd : Reg) {sh : Shift} (hsh : sh.wf = true) (rm : Reg) :
    decode (encodeReg c op s rn rd sh rm) = .ok (regInstr op c s rn rd sh rm) := by
  obtain ⟨hc, hclass, hop, hs, hrn, hrd, hamt, hkind, hbit4, hrm⟩ := (eq_encodeReg_iff _ c op s rn rd sh rm).1 rfl
  rw [field_one_eq_ofBool_iff] at hs
  rw [field_four_eq_ofFin_iff] at hrn hrd hrm
  have bit4 : (encodeReg c op s rn rd sh rm).getLsbD 4 = false := (field_one_eq_ofBool_iff _ 4 false).1 hbit4
  rw [decode_of_reg hclass hop, bit4, if_neg Bool.false_ne_true, decodeReg_eq, condField, hc, cond_ofBits_bits, hs,
    hrn, hrd, hrm, shiftField, hkind, hamt, shiftKind_ofBits_bits, shift_ofFields_of_wf hsh]

theorem decode_encodeBranch (c : Cond) (link : Bool) (imm24 : BitVec 24) :
    decode (encodeBranch c link imm24) = .ok (if link then .bl c imm24 else .b c imm24) := by
  obtain ⟨hc, hclass, hlink, himm24⟩ := (eq_encodeBranch_iff _ c link imm24).1 rfl
  rw [field_one_eq_ofBool_iff] at hlink
  rw [decode_of_branch hclass, decodeBranch, hlink, condField, hc, cond_ofBits_bits, himm24]

theorem decode_encode {i : Instr} (h : i.wf = true) : decode (encode i) = .ok i := by
  cases i
  case b => exact decode_encodeBranch _ false _
  case bl => exact decode_encodeBranch _ true _
  case subImm | addImm | adcImm | sbcImm | cmpImm | movImm => exact decode_encodeImm ..
  case subReg | addReg | adcReg | sbcReg | cmpReg | movReg => exact decode_encodeReg _ _ _ _ _ h _

/-- What the decoder answers carries the word's condition (R81). -/
theorem cond_of_decode {w : Word} {i : Instr} (h : decode w = .ok i) : i.cond = condField w := by
  obtain ⟨op, _, _, rfl⟩ | ⟨op, _, _, _, rfl⟩ | ⟨_, rfl⟩ := decode_ok_cases h
  · cases op <;> rfl
  · cases op <;> rfl
  · rw [decodeBranch]
    split <;> rfl

/-- What the decoder answers is well formed: its shift is spelled from fields. -/
theorem wf_of_decode {w : Word} {i : Instr} (h : decode w = .ok i) : i.wf = true := by
  obtain ⟨op, _, _, rfl⟩ | ⟨op, _, _, _, rfl⟩ | ⟨_, rfl⟩ := decode_ok_cases h
  · cases op <;> rfl
  · cases op <;> exact shift_wf_ofFields _ _
  · rw [decodeBranch]
    split <;> rfl

theorem field_not (w : Word) {lo len : Nat} (hlen : lo + len ≤ 32) : field (~~~w) lo len = ~~~field w lo len := by
  apply BitVec.eq_of_getLsbD_eq
  intro i hi
  have in_word : lo + i < 32 := by omega
  simp only [field, BitVec.getLsbD_extractLsb', BitVec.getLsbD_not, hi, in_word, decide_true, Bool.true_and]

/-- A field the fill does not touch. -/
theorem field_fill_kept {m a : Word} {lo len : Nat} (hm : field m lo len = 0#len) (ha : field a lo len = 0#len)
    (hlen : lo + len ≤ 32) (w : Word) : field ((w &&& ~~~m) ||| a) lo len = field w lo len := by
  have complement : field (~~~m) lo len = BitVec.allOnes len := by
    rw [field_not m hlen, hm, BitVec.not_zero]
  rw [field_or, field_and, complement, ha, BitVec.and_allOnes, BitVec.or_zero]

/-- A field that is filled. -/
theorem field_fill_ignored {m : Word} {lo len : Nat} (hm : field m lo len = BitVec.allOnes len) (hlen : lo + len ≤ 32)
    (w a : Word) : field ((w &&& ~~~m) ||| a) lo len = field a lo len := by
  have complement : field (~~~m) lo len = 0#len := by
    rw [field_not m hlen, hm, BitVec.not_allOnes]
  rw [field_or, field_and, complement, BitVec.and_zero, BitVec.zero_or]

theorem field_cond (w : Word) : field w 28 4 = (condField w).bits := (cond_bits_ofBits _).symm

theorem field_bit (w : Word) (i : Nat) : field w i 1 = BitVec.ofBool (w.getLsbD i) :=
  (field_one_eq_ofBool_iff w i _).2 rfl

/-- The encoder fills what CMP and MOV do not read (R93), field by field; it keeps every other field. -/
theorem encode_decodeImm {w : Word} {op : DpOp} (hclass : field w 25 3 = 0b001#3) (hop : field w 21 4 = op.bits) :
    encode (decodeImm op w) = (w &&& ~~~(decodeImm op w).ignoredBits) ||| (decodeImm op w).assembledBits := by
  cases op <;> refine ((eq_encodeImm_iff ..).2 ?_).symm <;>
    simp (disch := decide) only [decodeImm, Instr.ignoredBits, Instr.assembledBits, field_fill_kept, field_fill_ignored,
      and_true]
  case sub | add | adc | sbc => exact ⟨field_cond w, hclass, hop, field_bit w 20, rfl, rfl⟩
  case cmp => exact ⟨field_cond w, hclass, hop, rfl, rfl, rfl⟩
  case mov => exact ⟨field_cond w, hclass, hop, field_bit w 20, rfl, rfl⟩

/-- As `encode_decodeImm`, with the shift respelled from its fields. -/
theorem encode_decodeReg {w : Word} {op : DpOp} (hclass : field w 25 3 = 0b000#3) (hop : field w 21 4 = op.bits)
    (hbit4 : w.getLsbD 4 = false) :
    encode (decodeReg op w) = (w &&& ~~~(decodeReg op w).ignoredBits) ||| (decodeReg op w).assembledBits := by
  have bit4 : field w 4 1 = 0b0#1 := (field_one_eq_ofBool_iff w 4 false).2 hbit4
  cases op <;> refine ((eq_encodeReg_iff ..).2 ?_).symm <;>
    simp (disch := decide) only [decodeReg, Instr.ignoredBits, Instr.assembledBits, field_fill_kept, field_fill_ignored,
      shiftField, shift_amt5_ofFields, shift_kind_ofFields, shiftKind_bits_ofBits,
      true_and]
  case sub | add | adc | sbc => exact ⟨field_cond w, hclass, hop, field_bit w 20, rfl, rfl, bit4, rfl⟩
  case cmp => exact ⟨field_cond w, hclass, hop, rfl, rfl, rfl, bit4, rfl⟩
  case mov => exact ⟨field_cond w, hclass, hop, field_bit w 20, rfl, rfl, bit4, rfl⟩

theorem encode_decodeBranch {w : Word} (hclass : field w 25 3 = 0b101#3) :
    encode (decodeBranch w) = (w &&& ~~~(decodeBranch w).ignoredBits) ||| (decodeBranch w).assembledBits := by
  cases hlink : w.getLsbD 24 <;>
    simp only [decodeBranch, hlink, if_true, Bool.false_eq_true, if_false] <;>
    refine ((eq_encodeBranch_iff ..).2 ?_).symm <;>
    simp (disch := decide) only [Instr.ignoredBits, Instr.assembledBits, field_fill_kept, and_true]
  all_goals exact ⟨field_cond w, hclass, hlink ▸ field_bit w 24⟩

/-! ### The match and mask rows (R92) -/

/-- A field the mask keeps. -/
theorem field_and_kept {m : Word} {lo len : Nat} (hm : field m lo len = BitVec.allOnes len) (w : Word) :
    field (w &&& m) lo len = field w lo len := by
  rw [field_and, hm, BitVec.and_allOnes]

/-- A field the mask drops. -/
theorem field_and_dropped {m : Word} {lo len : Nat} (hm : field m lo len = 0#len) (w : Word) :
    field (w &&& m) lo len = 0#len := by
  rw [field_and, hm, BitVec.and_zero]

/-- A word matches a row of format DPI exactly when it has the class and the opcode. -/
theorem and_immMask_eq_iff (w : Word) (op : DpOp) :
    w &&& 0x0FE00000#32 = 0#4 ++ 0b001#3 ++ op.bits ++ 0#1 ++ 0#4 ++ 0#4 ++ 0#4 ++ 0#8 ↔
      field w 25 3 = 0b001#3 ∧ field w 21 4 = op.bits := by
  rw [eq_immFields (w &&& 0x0FE00000#32)]
  change @Eq (BitVec (4 + 3 + 4 + 1 + 4 + 4 + 4 + 8)) _ _ ↔ _
  simp (disch := decide) only [append_eq_append_iff, field_and_kept, field_and_dropped, true_and, and_true]

/-- A word matches a row of format DPR, or the SHIFT_FORM pattern beside it, when bit 4 too is as given. -/
theorem and_regMask_eq_iff (w : Word) (op : DpOp) (bit4 : Bool) : w &&& 0x0FE00010#32 =
      0#4 ++ 0b000#3 ++ op.bits ++ 0#1 ++ 0#4 ++ 0#4 ++ 0#5 ++ 0#2 ++ BitVec.ofBool bit4 ++ 0#4 ↔
    field w 25 3 = 0b000#3 ∧ field w 21 4 = op.bits ∧ w.getLsbD 4 = bit4 := by
  rw [eq_regFields (w &&& 0x0FE00010#32)]
  change @Eq (BitVec (4 + 3 + 4 + 1 + 4 + 4 + 5 + 2 + 1 + 4)) _ _ ↔ _
  simp (disch := decide) only [append_eq_append_iff, field_and_kept, field_and_dropped, field_one_eq_ofBool_iff,
    true_and, and_true, and_assoc]

/-- A word matches the row of B or BL exactly when it has the class and the L bit. -/
theorem and_branchMask_eq_iff (w : Word) (link : Bool) :
    w &&& 0x0F000000#32 = 0#4 ++ 0b101#3 ++ BitVec.ofBool link ++ 0#24 ↔
      field w 25 3 = 0b101#3 ∧ w.getLsbD 24 = link := by
  rw [eq_branchFields (w &&& 0x0F000000#32)]
  change @Eq (BitVec (4 + 3 + 1 + 24)) _ _ ↔ _
  simp (disch := decide) only [append_eq_append_iff, field_and_kept, field_and_dropped, field_one_eq_ofBool_iff,
    true_and, and_true]

/-- The row of format DPI for an opcode, as mask and match: class and opcode in place, every operand field zero. -/
def immRow (op : DpOp) : Word × Word :=
  (0x0FE00000#32, 0#4 ++ 0b001#3 ++ op.bits ++ 0#1 ++ 0#4 ++ 0#4 ++ 0#4 ++ 0#8)

/-- The row of format DPR for an opcode. -/
def regRow (op : DpOp) : Word × Word :=
  (0x0FE00010#32, 0#4 ++ 0b000#3 ++ op.bits ++ 0#1 ++ 0#4 ++ 0#4 ++ 0#5 ++ 0#2 ++ BitVec.ofBool false ++ 0#4)

/-- The row of B or BL. -/
def branchRow (link : Bool) : Word × Word := (0x0F000000#32, 0#4 ++ 0b101#3 ++ BitVec.ofBool link ++ 0#24)

/-- The six supported opcodes, in the order of R92. -/
def dpOps : List DpOp := [.sub, .add, .adc, .sbc, .cmp, .mov]

theorem mem_dpOps (op : DpOp) : op ∈ dpOps := by cases op <;> decide

theorem opcodeRows_eq :
    opcodeRows = dpOps.flatMap (fun op => [immRow op, regRow op]) ++ [branchRow false, branchRow true] := by
  decide

/-- The fourteen rows: two for each supported opcode, and B and BL. -/
theorem mem_opcodeRows_iff (row : Word × Word) :
    row ∈ opcodeRows ↔ (∃ op, row = immRow op) ∨ (∃ op, row = regRow op) ∨ (∃ link, row = branchRow link) := by
  simp only [opcodeRows_eq, List.mem_append, List.mem_flatMap, mem_dpOps, true_and, List.mem_cons, List.not_mem_nil,
    or_false, exists_or, Bool.exists_bool, or_assoc]

theorem row_decodeImm (op : DpOp) (w : Word) :
    ((decodeImm op w).mask, (decodeImm op w).pattern) = immRow op := by cases op <;> rfl

theorem row_decodeReg (op : DpOp) (w : Word) :
    ((decodeReg op w).mask, (decodeReg op w).pattern) = regRow op := by cases op <;> rfl

theorem row_decodeBranch (w : Word) :
    ((decodeBranch w).mask, (decodeBranch w).pattern) = branchRow (w.getLsbD 24) := by
  rw [decodeBranch]
  cases w.getLsbD 24 <;> rfl

theorem matches_of_row_eq {w : Word} {i : Instr} {row : Word × Word} (hrow : (i.mask, i.pattern) = row)
    (hmatch : w &&& row.1 = row.2) : w &&& i.mask = i.pattern := by
  subst hrow
  exact hmatch

/-- A word that decodes matches the row of its instruction, which is one of the fourteen. -/
theorem row_of_decode {w : Word} {i : Instr} (h : decode w = .ok i) :
    (i.mask, i.pattern) ∈ opcodeRows ∧ w &&& i.mask = i.pattern := by
  rw [mem_opcodeRows_iff]
  obtain ⟨op, hclass, hop, rfl⟩ | ⟨op, hclass, hop, hbit4, rfl⟩ | ⟨hclass, rfl⟩ := decode_ok_cases h
  · exact ⟨.inl ⟨op, row_decodeImm op w⟩,
      matches_of_row_eq (row_decodeImm op w) ((and_immMask_eq_iff w op).2 ⟨hclass, hop⟩)⟩
  · exact ⟨.inr (.inl ⟨op, row_decodeReg op w⟩),
      matches_of_row_eq (row_decodeReg op w) ((and_regMask_eq_iff w op false).2 ⟨hclass, hop, hbit4⟩)⟩
  · exact ⟨.inr (.inr ⟨_, row_decodeBranch w⟩),
      matches_of_row_eq (row_decodeBranch w) ((and_branchMask_eq_iff w _).2 ⟨hclass, rfl⟩)⟩

/-- A word that matches a row decodes to the instruction of that row. -/
theorem decode_of_row {w : Word} {row : Word × Word} (hrow : row ∈ opcodeRows) (hmatch : w &&& row.1 = row.2) :
    ∃ i, decode w = .ok i ∧ (i.mask, i.pattern) = row := by
  obtain ⟨op, rfl⟩ | ⟨op, rfl⟩ | ⟨link, rfl⟩ := (mem_opcodeRows_iff row).1 hrow
  · obtain ⟨hclass, hop⟩ := (and_immMask_eq_iff w op).1 hmatch
    exact ⟨_, decode_of_imm hclass hop, row_decodeImm op w⟩
  · obtain ⟨hclass, hop, hbit4⟩ := (and_regMask_eq_iff w op false).1 hmatch
    exact ⟨_, by rw [decode_of_reg hclass hop, hbit4, if_neg Bool.false_ne_true], row_decodeReg op w⟩
  · obtain ⟨hclass, hlink⟩ := (and_branchMask_eq_iff w link).1 hmatch
    exact ⟨_, decode_of_branch hclass, hlink ▸ row_decodeBranch w⟩

/-! ### Words from bytes and numbers -/

/-- The model's reading of a table number gives back the word it numbers. -/
theorem ofNat_toNat_mod (w : Word) : BitVec.ofNat 32 (w.toNat % 2 ^ 32) = w := by
  rw [Nat.mod_eq_of_lt w.isLt, BitVec.ofNat_toNat, BitVec.setWidth_eq]

/-- The bytes of a word, joined again, are the word (R14). -/
theorem joinBytes_fields (w : Word) : joinBytes (field w 0 8) (field w 8 8) (field w 16 8) (field w 24 8) = w := by
  simp only [joinBytes, field, BitVec.extractLsb'_append_extractLsb'_eq_extractLsb', BitVec.extractLsb'_eq_self]

end Sys2Proof

section
open Sys2Proof

/-- Settles O1, by cases on the instruction: each format's word has the fields it was built from. -/
theorem decodeUndoesEncode : Obligations.DecodeUndoesEncode := fun _ => decode_encode

/-- Settles O2, by the format of the word. -/
theorem encodeUndoesDecode : Obligations.EncodeUndoesDecode := by
  intro w i h
  refine ⟨wf_of_decode h, ?_⟩
  obtain ⟨op, hclass, hop, rfl⟩ | ⟨op, hclass, hop, hbit4, rfl⟩ | ⟨hclass, rfl⟩ := decode_ok_cases h
  · exact encode_decodeImm hclass hop
  · exact encode_decodeReg hclass hop hbit4
  · exact encode_decodeBranch hclass

/-- Settles O3; no word matches two rows, as each is the row of the one instruction the word decodes to. -/
theorem decodeAgreesWithMatchMaskRows : Obligations.DecodeAgreesWithMatchMaskRows := by
  refine ⟨fun w i => row_of_decode, fun w row => decode_of_row, fun w row row' hrow hrow' hmatch hmatch' => ?_⟩
  obtain ⟨i, hi, rfl⟩ := decode_of_row hrow hmatch
  obtain ⟨i', hi', rfl⟩ := decode_of_row hrow' hmatch'
  obtain rfl : i = i' := Except.ok.inj (hi.symm.trans hi')
  rfl

/-- Settles O4, by evaluating the decoder on the twelve words. -/
theorem specWordsDecodeAsNamed : Obligations.SpecWordsDecodeAsNamed := by
  unfold Obligations.SpecWordsDecodeAsNamed
  decide

/-- Settles O5: the four bytes of the table word, joined again, are the word. -/
theorem tableWordIsReadFromItsBytes : Obligations.TableWordIsReadFromItsBytes := by
  intro w
  simp only [decodeTableWord, ofNat_toNat_mod, wordBytes, decodeBytes, joinBytes_fields]
  cases decode w <;> rfl

end

namespace Sys2Proof.Machine

/-! ### The step and the decoded instruction -/

/-- When the fetched word decodes, the step is the instruction's execution, its condition included (40 R119). -/
theorem step_of_decode {s : State} {i : Instr} (h : decode s.fetch = .ok i) : step s = exec i s := by
  have same : condPass i.cond s.nzcv = s.passes := by rw [cond_of_decode h, State.passes]
  obtain ⟨hp, hstep⟩ | ⟨_, j, hj, hstep⟩ | ⟨_, r, hr, _⟩ := step_cases s
  · rw [hstep, exec_of_fail (same.trans hp)]
  · rw [h] at hj
    cases hj
    exact hstep
  · rw [h] at hr
    cases hr

/-- When the condition passes and the fetched word is no instruction, the step raises the fault (60 R212). -/
theorem step_of_error {s : State} {r : Reason} (hp : s.passes = true) (h : decode s.fetch = .error r) :
    step s = .fault (.unimplemented r s.fetch s.pc) := by
  obtain ⟨hfail, _⟩ | ⟨_, i, hi, _⟩ | ⟨_, r', hr', hstep⟩ := step_cases s
  · simp [hp] at hfail
  · rw [h] at hi
    cases hi
  · rw [h] at hr'
    cases hr'
    exact hstep

/-- When the condition passes too, the step is the instruction's effect. -/
theorem step_of_decode_of_pass {s : State} {i : Instr} (hp : s.passes = true) (h : decode s.fetch = .ok i) :
    step s = .next (effect i s) := by
  have pass : condPass i.cond s.nzcv = true := by rwa [cond_of_decode h]
  rw [step_of_decode h, exec_of_pass pass]

/-! ### The executors over the word (42 R153, 43 R180) -/

/-- Operand 2 of format DPI, read from the word. -/
theorem operand2_imm_eq_wordOperand2 {w : Word} (hbit25 : w.getLsbD 25 = true) (s : State) :
    s.operand2 (.imm (field w 8 4) (field w 0 8)) = wordOperand2 w s := by
  have amount_zero : 2 * (field w 8 4).toNat = 0 ↔ field w 8 4 = 0#4 := by
    rw [← BitVec.toNat_inj, BitVec.toNat_ofNat]
    omega
  simp only [State.operand2, immOperand, wordOperand2, hbit25, if_true, amount_zero, BitVec.msb_eq_getLsbD_last]

/-- Operand 2 of format DPR, read from the word: spelling the shift and reading it back changes nothing. -/
theorem operand2_reg_eq_wordOperand2 {w : Word} (hbit25 : w.getLsbD 25 = false) (s : State) :
    s.operand2 (.reg (shiftField w) (regField w 0)) = wordOperand2 w s := by
  simp only [State.operand2, regOperand, shiftField, shift_kind_ofFields, shift_amt5_ofFields, wordOperand2, hbit25,
    Bool.false_eq_true, if_false]

/-- The write-back of an opcode with a destination is the word algorithm's. -/
theorem writeBack_eq_wordWrite {opcode : BitVec 4} (hop : opcode ≠ 0b1010#4) (s : State) (sf : Bool) (rd : Reg)
    (out : AluOut) : s.writeBack sf rd out = wordWrite opcode sf rd out s := by
  by_cases h15 : rd = 15
  · subst h15
    simp only [State.writeBack, wordWrite, hop, ne_eq, not_false_eq_true, if_true, or_false, and_self]
  · simp only [State.writeBack, wordWrite, hop, h15, ne_eq, not_false_eq_true, if_true, if_false, or_false, and_false,
      nextPc_eq, State.setPc]

/-- The write-back of CMP is the word algorithm's, whatever S and rd are. -/
theorem compareBack_eq_wordWrite (s : State) (sf : Bool) (rd : Reg) (out : AluOut) :
    s.compareBack out = wordWrite 0b1010#4 sf rd out s := by
  simp only [State.compareBack, wordWrite, ne_eq, not_true_eq_false, or_true, false_and, if_true, if_false, nextPc_eq,
    State.setPc]

/-- The data-processing algorithm after its two tests (42 R153). -/
def dpEffect (op : DpOp) (w : Word) (s : State) : State :=
  wordWrite op.bits (w.getLsbD 20) (regField w 12)
    (wordAlu op.bits (s.operandReg (regField w 16)) (wordOperand2 w s).1 (wordOperand2 w s).2 s) s

theorem effect_decodeImm {w : Word} (hbit25 : w.getLsbD 25 = true) (op : DpOp) (s : State) :
    effect (decodeImm op w) s = dpEffect op w s := by
  rw [dpEffect, ← operand2_imm_eq_wordOperand2 hbit25]
  cases op
  case cmp => exact compareBack_eq_wordWrite ..
  all_goals exact writeBack_eq_wordWrite (by decide) ..

theorem effect_decodeReg {w : Word} (hbit25 : w.getLsbD 25 = false) (op : DpOp) (s : State) :
    effect (decodeReg op w) s = dpEffect op w s := by
  rw [dpEffect, ← operand2_reg_eq_wordOperand2 hbit25]
  cases op
  case cmp => exact compareBack_eq_wordWrite ..
  all_goals exact writeBack_eq_wordWrite (by decide) ..

theorem wordBranch_eq (w : Word) (s : State) : wordBranch w s = .next (effect (decodeBranch w) s) := by
  cases hlink : w.getLsbD 24 <;>
    simp only [wordBranch, decodeBranch, effect, hlink, if_true, Bool.false_eq_true, if_false, branchTarget_eq,
      nextPc_eq, State.setPc]

/-- The list of R153's opcode test is the six supported opcodes. -/
theorem ofBits?_eq_none_iff (k : BitVec 4) :
    DpOp.ofBits? k = none ↔ k ∉ [0b0010#4, 0b0100#4, 0b0101#4, 0b0110#4, 0b1010#4, 0b1101#4] := by
  revert k
  decide

theorem wordDp_of_opcode {w : Word} (hop : DpOp.ofBits? (field w 21 4) = none) (s : State) :
    wordDp w s = .fault (.unimplemented .opcode w s.pc) :=
  if_pos ((ofBits?_eq_none_iff _).1 hop)

/-- With a supported opcode the shift-form test decides (42 R153). -/
theorem wordDp_of_supported {w : Word} {op : DpOp} (hop : field w 21 4 = op.bits) (s : State) :
    wordDp w s = if w.getLsbD 25 = false ∧ w.getLsbD 4 = true then .fault (.unimplemented .shiftForm w s.pc)
      else .next (dpEffect op w s) := by
  have supported : ¬ op.bits ∉ [0b0010#4, 0b0100#4, 0b0101#4, 0b0110#4, 0b1010#4, 0b1101#4] := fun h => by
    simpa using (ofBits?_eq_none_iff op.bits).2 h
  simp only [wordDp, hop, if_neg supported, raiseUnimplemented, dpEffect]

/-! ### The class routes the word (40 R115) -/

theorem step_of_dpClass {s : State} (hp : s.passes = true)
    (hclass : field s.fetch 25 3 = 0b000#3 ∨ field s.fetch 25 3 = 0b001#3) : step s = wordDp s.fetch s := by
  cases hop : DpOp.ofBits? (field s.fetch 21 4) with
  | none => rw [step_of_error hp (decode_of_opcode hclass hop), wordDp_of_opcode hop]
  | some op =>
    have opcode := (ofBits?_eq_some_iff _ _).1 hop
    rw [wordDp_of_supported opcode]
    obtain hreg | himm := hclass
    · have bit25 := bit25_of_reg hreg
      have decoded := decode_of_reg hreg opcode
      cases hbit4 : s.fetch.getLsbD 4 <;> rw [hbit4] at decoded
      · rw [if_neg (by simp), step_of_decode_of_pass hp decoded, effect_decodeReg bit25]
      · rw [if_pos ⟨bit25, rfl⟩, step_of_error hp decoded]
    · have bit25 := bit25_of_imm himm
      rw [if_neg (by simp [bit25]), step_of_decode_of_pass hp (decode_of_imm himm opcode), effect_decodeImm bit25]

theorem step_of_branchClass {s : State} (hp : s.passes = true) (hclass : field s.fetch 25 3 = 0b101#3) :
    step s = wordBranch s.fetch s := by
  rw [step_of_decode_of_pass hp (decode_of_branch hclass), wordBranch_eq]

theorem step_of_otherClass {s : State} (hp : s.passes = true)
    (hdp : ¬ (field s.fetch 25 3 = 0b000#3 ∨ field s.fetch 25 3 = 0b001#3)) (hbranch : field s.fetch 25 3 ≠ 0b101#3) :
    step s = .fault (.unimplemented .cls s.fetch s.pc) :=
  step_of_error hp (by rw [decode, if_neg hbranch, if_neg hdp])

/-- The step is the algorithm over the word: the same tests, in the same order (40 R119). -/
theorem step_eq_wordStep (s : State) : step s = wordStep s := by
  change step s = if s.passes = false then .next (s.writeReg 15 (s.pc + 4#32))
    else if field s.fetch 25 3 = 0b000#3 ∨ field s.fetch 25 3 = 0b001#3 then wordDp s.fetch s
    else if field s.fetch 25 3 = 0b101#3 then wordBranch s.fetch s
    else .fault (.unimplemented .cls s.fetch s.pc)
  cases hp : s.passes
  · rw [if_pos rfl, step_of_fail hp, State.advance, nextPc_eq, State.setPc]
  · rw [if_neg Bool.true_eq_false.mp]
    split_ifs with hdp hbranch
    · exact step_of_dpClass hp hdp
    · exact step_of_branchClass hp hbranch
    · exact step_of_otherClass hp hdp hbranch

end Sys2Proof.Machine

section
open Sys2Proof Sys2Proof.Machine

/-- Settles O31: the decoder answers well-formed instructions, and the step adds nothing around `exec`, whose own gate
tests the same condition. -/
theorem stepRunsTheDecodedInstruction : Obligations.StepRunsTheDecodedInstruction :=
  fun _ _ h => ⟨wf_of_decode h, step_of_decode h⟩

/-- Settles O32: the same tests in the same order, and each executor's effect is the word algorithm's. -/
theorem stepIsTheWordAlgorithm : Obligations.StepIsTheWordAlgorithm := step_eq_wordStep

/-- Settles O26: the three classes exclude each other, and each has its case of the step. -/
theorem classRoutesTheWord : Obligations.ClassRoutesTheWord := by
  intro s hp
  refine ⟨fun hclass => ?_, fun hclass => step_of_dpClass hp (List.mem_pair.1 hclass), step_of_branchClass hp⟩
  have others : ∀ k ∈ [0b010#3, 0b011#3, 0b100#3, 0b110#3, 0b111#3], ¬ (k = 0b000#3 ∨ k = 0b001#3) ∧ k ≠ 0b101#3 := by
    decide
  obtain ⟨hdp, hbranch⟩ := others _ hclass
  exact step_of_otherClass hp hdp hbranch

/-- Settles O27: the opcode test comes before the shift-form test, and a fault changes no state. -/
theorem unsupportedOpcodeFaults : Obligations.UnsupportedOpcodeFaults := by
  intro s hp hclass hop
  have unsupported : ∀ k ∈ [0b0000#4, 0b0001#4, 0b0011#4, 0b0111#4, 0b1000#4, 0b1001#4, 0b1011#4, 0b1100#4, 0b1110#4,
      0b1111#4], DpOp.ofBits? k = none := by decide
  have faults := step_of_error hp (decode_of_opcode (List.mem_pair.1 hclass) (unsupported _ hop))
  exact ⟨faults, apply_step_of_fault faults⟩

/-- Settles O28: format DPR with a supported opcode comes to the shift-form test. -/
theorem shiftByRegisterFaults : Obligations.ShiftByRegisterFaults := by
  intro s hp hclass hbit4 hop
  cases h : DpOp.ofBits? (s.fetch.extractLsb' 21 4) with
  | none => exact absurd hop ((ofBits?_eq_none_iff _).1 h)
  | some op =>
    refine step_of_error hp ?_
    rw [decode_of_reg hclass ((ofBits?_eq_some_iff _ _).1 h), if_pos hbit4]

/-- Settles O29: a word matches a row exactly when it decodes. -/
theorem everyWordSkipsExecutesOrFaults : Obligations.EveryWordSkipsExecutesOrFaults := by
  refine fun s => ⟨fun hp => ⟨s.advance, step_of_fail hp, skipped_advance s⟩, fun hp hrow => ?_, fun hp hrows => ?_⟩
  · obtain ⟨row, hrow, hmatch⟩ := hrow
    obtain ⟨i, hi, _⟩ := decode_of_row hrow hmatch
    exact ⟨i, effect i s, hi, step_of_decode hi, step_of_decode_of_pass hp hi⟩
  · cases hd : decode s.fetch with
    | ok i =>
      obtain ⟨hrow, hmatch⟩ := row_of_decode hd
      exact absurd hmatch (hrows _ hrow)
    | error r => exact ⟨r, step_of_error hp hd⟩

end

namespace Sys2Proof.Machine

/-! ### What an address has behind it, by its region (20 R51 to R56) -/

theorem backed_of_ram (s : State) {a : Word} (h : region a = .ewram ∨ region a = .iwram) : s.backed a = true := by
  obtain h | h := h <;> rw [State.backed, h]

theorem backed_of_rom (s : State) {a : Word} (h : region a = .rom) :
    s.backed a = decide (regionOffset a < s.romLen) := by
  rw [State.backed, h]

theorem readByte_of_backed {s : State} {a : Word} (h : s.backed a = true) : s.readByte a = s.mem.read a.toNat := by
  rw [State.readByte, if_pos h]

/-- A region's base and the offset in it make up the address (R52). -/
theorem base_add_regionOffset (a : Word) : (region a).base + regionOffset a = a.toNat := by
  have covers := region_covers a
  rw [regionOffset]
  cases hr : region a <;> simp only [hr, Region.Covers] at covers <;>
    simp only [Region.base, Config.ewramBase, Config.iwramBase, Config.romBase] <;> omega

theorem rom_iff (a : Word) : region a = .rom ↔ 0x08000000 ≤ a.toNat ∧ a.toNat ≤ 0x0DFFFFFF := region_eq_iff a .rom

/-! ### Words in memory -/

theorem wordBacked_iff (s : State) (a : Word) : s.wordBacked a = true ↔
    s.backed a = true ∧ s.backed (a + 1#32) = true ∧ s.backed (a + 2#32) = true ∧ s.backed (a + 3#32) = true := by
  simp only [State.wordBacked, addrAdd_eq, Bool.and_eq_true, and_assoc]

/-- A word write, byte by byte (20 R60). The four addresses differ, so the order of the writes does not matter. -/
theorem readByte_writeWord {s : State} (h : s.mem.wf = true) (a v x : Word) : (s.writeWord a v).readByte x =
    if s.backed x = false then 0#8
    else if x = a then field v 0 8
    else if x = a + 1#32 then field v 8 8
    else if x = a + 2#32 then field v 16 8
    else if x = a + 3#32 then field v 24 8
    else s.readByte x := by
  have wf1 := wf_writeByte h a (field v 0 8)
  have wf2 := wf_writeByte wf1 (a + 1#32) (field v 8 8)
  have wf3 := wf_writeByte wf2 (a + 2#32) (field v 16 8)
  rw [writeWord_eq, readByte_writeByte wf3, readByte_writeByte wf2, readByte_writeByte wf1, readByte_writeByte h]
  simp only [backed_writeByte]
  cases hb : s.backed x
  · have not_written : ∀ y, ¬ (x = y ∧ s.backed y = true) := by
      rintro y ⟨rfl, hy⟩
      rw [hb] at hy
      cases hy
    simp only [not_written, if_false, if_true, readByte_of_not_backed hb]
  · have written : ∀ y, (x = y ∧ s.backed y = true) ↔ x = y := fun y => ⟨And.left, fun e => ⟨e, e ▸ hb⟩⟩
    simp only [written, Bool.true_eq_false, if_false]
    by_cases h0 : x = a
    · subst h0
      simp
    by_cases h1 : x = a + 1#32
    · subst h1
      simp
    by_cases h2 : x = a + 2#32
    · subst h2
      simp
    simp only [h0, h1, h2, if_false]

/-- Where all four bytes have backing, a written word is read back, whatever its alignment (20 R59 to R61). -/
theorem readWord_writeWord {s : State} (h : s.mem.wf = true) {a : Word} (hb : s.wordBacked a = true) (v : Word) :
    (s.writeWord a v).readWord a = v := by
  obtain ⟨hb0, hb1, hb2, hb3⟩ := (wordBacked_iff s a).1 hb
  rw [readWord_eq]
  simp only [readByte_writeWord h, hb0, hb1, hb2, hb3, Bool.true_eq_false, if_false, if_true]
  simpa using joinBytes_fields v

/-- A word with its first and last byte in one RAM region lies in it. -/
theorem wordBacked_of_ram (s : State) {a : Word} (hram : region a = .ewram ∨ region a = .iwram)
    (hlast : region (a + 3#32) = region a) : s.wordBacked a = true := by
  have between : ∀ k : Word, k.toNat ≤ 3 → s.backed (a + k) = true := fun k hk => by
    apply backed_of_ram
    obtain h | h := hram <;> rw [h] at hlast <;> rw [region_eq_iff] at h hlast <;>
      simp only [Region.Covers, BitVec.toNat_add, BitVec.toNat_ofNat] at h hlast
    · left
      rw [region_eq_iff, Region.Covers, BitVec.toNat_add]
      omega
    · right
      rw [region_eq_iff, Region.Covers, BitVec.toNat_add]
      omega
  rw [wordBacked_iff]
  exact ⟨backed_of_ram s hram, between _ (by decide), between _ (by decide), between _ (by decide)⟩

/-- Concatenation as the OR of shifted bytes (20 R59). -/
theorem joinBytes_eq_or (b0 b1 b2 b3 : Byte) : joinBytes b0 b1 b2 b3 =
    b0.setWidth 32 ||| (b1.setWidth 32 <<< 8) ||| (b2.setWidth 32 <<< 16) ||| (b3.setWidth 32 <<< 24) := by
  apply BitVec.eq_of_getLsbD_eq
  intro i hi
  simp only [joinBytes, BitVec.getLsbD_append, BitVec.getLsbD_or, BitVec.getLsbD_shiftLeft, BitVec.getLsbD_setWidth]
  interval_cases i <;> simp

/-! ### Loading an image (20 R67) -/

theorem read_loadImage_rom (s : State) (image : List Byte) (i : Nat) :
    (s.loadImage image).mem.read (Config.romBase + i) = image.getD i 0#8 := by
  have kept_below : ∀ cell ∈ s.mem.filter (fun cell => decide (cell.1 < Config.romBase)), cell.1 ≠ Config.romBase + i :=
    fun cell hcell => by
      have below := (List.mem_filter.1 hcell).2
      simp only [decide_eq_true_eq] at below
      omega
  exact (read_append_right kept_below).trans (read_layFrom image _ i)

theorem read_loadImage_below (s : State) (image : List Byte) {k : Nat} (hk : k < Config.romBase) :
    (s.loadImage image).mem.read k = s.mem.read k := by
  have laid_above : ∀ cell ∈ Memory.layFrom Config.romBase image, cell.1 ≠ k := fun cell hcell => by
    have above := (mem_layFrom hcell).1
    omega
  exact (read_append_left laid_above).trans (read_filter (fun _ => decide_eq_true hk) s.mem)

/-- Every ROM address reads the new image, and zero past its end (20 R56, R67). -/
theorem readByte_loadImage_rom (s : State) (image : List Byte) {a : Word} (h : region a = .rom) :
    (s.loadImage image).readByte a = image.getD (regionOffset a) 0#8 := by
  have backed := backed_of_rom (s.loadImage image) h
  rw [loadImage_romLen] at backed
  by_cases below : regionOffset a < image.length
  · have key := base_add_regionOffset a
    rw [h] at key
    rw [readByte_of_backed (backed.trans (decide_eq_true below)), ← key]
    exact read_loadImage_rom s image _
  · rw [readByte_of_not_backed (backed.trans (decide_eq_false below)),
      List.getD_eq_default _ _ (Nat.le_of_not_lt below)]

/-- Outside the ROM window a load changes no byte. -/
theorem readByte_loadImage_of_ne_rom (s : State) (image : List Byte) {a : Word} (h : region a ≠ .rom) :
    (s.loadImage image).readByte a = s.readByte a := by
  cases hr : region a with
  | rom => exact absurd hr h
  | unmapped => rw [readByte_of_not_backed (backed_of_unmapped _ hr), readByte_of_not_backed (backed_of_unmapped _ hr)]
  | ewram | iwram =>
    have ram : region a = .ewram ∨ region a = .iwram := by simp [hr]
    have covers := region_covers a
    rw [hr] at covers
    simp only [Region.Covers] at covers
    rw [readByte_of_backed (backed_of_ram _ ram), readByte_of_backed (backed_of_ram _ ram),
      read_loadImage_below s image (by simp only [Config.romBase]; omega)]

/-! ### Placing a word for the next fetch (log 21) -/

@[simp] theorem growImageToPc_regs (s : State) : s.growImageToPc.regs = s.regs := by
  rw [State.growImageToPc]
  split <;> rfl

@[simp] theorem growImageToPc_cpsr (s : State) : s.growImageToPc.cpsr = s.cpsr := by
  rw [State.growImageToPc]
  split <;> rfl

@[simp] theorem growImageToPc_mem (s : State) : s.growImageToPc.mem = s.mem := by
  rw [State.growImageToPc]
  split <;> rfl

theorem fetchable_cases (s : State) :
    s.growImageToPc.wordBacked s.pc = true ∧ s.fetchable = s ∨ s.fetchable = s.setPc 0x08000000#32 := by
  rw [State.fetchable]
  split
  · exact .inl ⟨‹_›, rfl⟩
  · exact .inr rfl

theorem wordBacked_romBase {s : State} (h : 4 ≤ s.romLen) : s.wordBacked 0x08000000#32 = true := by
  have inImage : ∀ k : Word, k.toNat < 4 → s.backed (0x08000000#32 + k) = true := fun k hk => by
    have address : (0x08000000#32 + k).toNat = 0x08000000 + k.toNat := by
      rw [BitVec.toNat_add, BitVec.toNat_ofNat]
      omega
    have hrom : region (0x08000000#32 + k) = .rom := (rom_iff _).2 (by omega)
    rw [backed_of_rom s hrom, regionOffset_of_region hrom, address, Region.base, Config.romBase, decide_eq_true_eq]
    omega
  rw [wordBacked_iff]
  exact ⟨inImage 0#32 (by decide), inImage 1#32 (by decide), inImage 2#32 (by decide), inImage 3#32 (by decide)⟩

/-- Where `placeWord` writes, all four bytes have backing. -/
theorem wordBacked_fetchable (s : State) : s.fetchable.growImageToPc.wordBacked s.fetchable.pc = true := by
  obtain ⟨backed, h⟩ | h := fetchable_cases s
  · rw [h]
    exact backed
  · rw [h, pc_setPc]
    apply wordBacked_romBase
    have inWindow : Config.romBase ≤ (s.setPc 0x08000000#32).pc.toNat ∧
        (s.setPc 0x08000000#32).pc.toNat + 4 ≤ Config.romBase + Config.romWindow := by
      rw [pc_setPc]
      decide
    rw [State.growImageToPc, if_pos inWindow, pc_setPc]
    exact le_max_right _ _

/-- Choosing the place changes no byte, no flag and no register but r15. -/
theorem fetchable_frame (s : State) : s.fetchable.mem = s.mem ∧ s.fetchable.cpsr = s.cpsr ∧
    ∀ i, i ≠ 15 → s.fetchable.readReg i = s.readReg i := by
  obtain ⟨_, h⟩ | h := fetchable_cases s <;> rw [h]
  · exact ⟨rfl, rfl, fun _ _ => rfl⟩
  · exact ⟨rfl, rfl, fun i hi => readReg_setPc_ne s _ hi⟩

theorem readReg_congr {s t : State} (h : t.regs = s.regs) (i : Reg) : t.readReg i = s.readReg i := by
  rw [State.readReg, State.readReg, h]

theorem placeWord_regs (s : State) (w : Word) : (s.placeWord w).regs = s.fetchable.regs := by
  rw [State.placeWord, writeWord_regs, growImageToPc_regs]

theorem fetch_writeWord {s : State} (h : s.mem.wf = true) (hb : s.wordBacked s.pc = true) (v : Word) :
    (s.writeWord s.pc v).fetch = v := by
  have pc_kept : (s.writeWord s.pc v).pc = s.pc := readReg_congr (writeWord_regs s _ v) 15
  rw [State.fetch, pc_kept, readWord_writeWord h hb]

theorem fetch_placeWord {s : State} (h : s.mem.wf = true) (w : Word) : (s.placeWord w).fetch = w := by
  have pc_kept : s.fetchable.growImageToPc.pc = s.fetchable.pc := readReg_congr (growImageToPc_regs _) 15
  have wf : s.fetchable.growImageToPc.mem.wf = true := by rwa [growImageToPc_mem, (fetchable_frame s).1]
  rw [State.placeWord, ← pc_kept]
  exact fetch_writeWord wf (pc_kept ▸ wordBacked_fetchable s) w

theorem withFetchWord_eq_placeWord (s : State) (w : Word) : s.withFetchWord 32 w.toNat = s.placeWord w := by
  rw [State.withFetchWord, ofNat_toNat_mod]

end Sys2Proof.Machine

section
open Sys2Proof Sys2Proof.Machine

/-- Settles O13: RAM always has backing, so a byte is held at its key, and a word inside the region at four of them. -/
theorem ramReadsBackWhatWasWritten : Obligations.RamReadsBackWhatWasWritten := by
  intro s hwf a hram
  have backed := backed_of_ram s hram
  refine ⟨?_, fun v => ⟨?_, fun x hx => ?_, by simp⟩, fun v hlast => ?_⟩
  · rw [base_add_regionOffset, readByte_of_backed backed]
  · rw [readByte_writeByte hwf, if_pos ⟨rfl, backed⟩]
  · rw [readByte_writeByte hwf, if_neg fun h => hx h.1]
  · exact readWord_writeWord hwf (wordBacked_of_ram s hram hlast) v

/-- Settles O15: a ROM address has backing exactly below the image's length. -/
theorem romWindowBacksExactlyTheImage : Obligations.RomWindowBacksExactlyTheImage := by
  intro s hwf a v hrom
  have backed := backed_of_rom s hrom
  refine ⟨fun below => ⟨?_, fun x hx => ?_⟩, fun past => ?_, writeByte_romLen s a v⟩
  · rw [readByte_writeByte hwf, if_pos ⟨rfl, backed.trans (decide_eq_true below)⟩]
  · rw [readByte_writeByte hwf, if_neg fun h => hx h.1]
  · have not_backed := backed.trans (decide_eq_false (Nat.not_lt.mpr past))
    exact ⟨readByte_of_not_backed not_backed, writeByte_of_not_backed not_backed v⟩

/-- Settles O16: the concatenation of four routed bytes is the OR of their shifts. -/
theorem wordReadIsFourRoutedByteReads : Obligations.WordReadIsFourRoutedByteReads :=
  fun s a => (readWord_eq s a).trans (joinBytes_eq_or _ _ _ _)

/-- Settles O17, by the four routed byte writes; their addresses differ. -/
theorem wordWriteIsFourRoutedByteWrites : Obligations.WordWriteIsFourRoutedByteWrites :=
  fun s hwf a v => ⟨readByte_writeWord hwf a v, writeWord_regs s a v, writeWord_cpsr s a v, writeWord_romLen s a v,
    writeWord_saved s a v, writeWord_vram s a v⟩

/-- Settles O18: the new memory is the old cells below the ROM window, and the image laid from its base. -/
theorem loadImageReplacesTheRomRegion : Obligations.LoadImageReplacesTheRomRegion :=
  fun s image => ⟨rfl, read_loadImage_rom s image, fun _ => readByte_loadImage_rom s image,
    fun _ => readByte_loadImage_of_ne_rom s image, rfl, rfl, rfl, rfl⟩

/-- Settles O19: the fetch reads memory, so it reads what was written. -/
theorem writtenCodeIsTheNextFetch : Obligations.WrittenCodeIsTheNextFetch := by
  intro s v hwf hb
  have fetched := fetch_writeWord hwf hb v
  exact ⟨fetched, fun i hi => step_of_decode (by rwa [fetched])⟩

/-- Settles O20: the place `fetchable` chooses has backing once the image has grown to it. -/
theorem placedWordIsTheNextFetch : Obligations.PlacedWordIsTheNextFetch := by
  intro s w hwf
  obtain ⟨_, cpsr, regs⟩ := fetchable_frame s
  rw [withFetchWord_eq_placeWord]
  refine ⟨fetch_placeWord hwf w, ?_, fun i hi => ?_⟩
  · rw [State.placeWord, writeWord_cpsr, growImageToPc_cpsr, cpsr]
  · rw [readReg_congr (placeWord_regs s w), regs i hi]

/-- Settles O21: the boot address is the base of the ROM window, and the image is laid from there. -/
theorem firstFetchIsTheImageStart : Obligations.FirstFetchIsTheImageStart := by
  intro b0 b1 b2 b3 rest
  change (State.reset.loadImage _).readWord 0x08000000#32 = _
  rw [readWord_eq, readByte_loadImage_rom _ _ (by decide), readByte_loadImage_rom _ _ (by decide),
    readByte_loadImage_rom _ _ (by decide), readByte_loadImage_rom _ _ (by decide)]
  rfl

end

namespace Sys2Proof.Laws

/-! ### The bit utilities (00 R9, R10) -/

theorem setBit_of_le (w : Word) {pos : Nat} (h : pos ≤ 31) (v : Bool) : setBit w pos v = some (forceBit w pos v) :=
  if_pos h

theorem bits_eq_none_iff (w : Word) (lo hi : Nat) : bits w lo hi = none ↔ hi < lo := by
  by_cases h : hi < lo
  · simp only [bits, h, if_true]
  · simp only [bits, h, if_false, reduceCtorEq]

/-- A slice has as many bits as its range. -/
theorem bits_lt {w : Word} {lo hi n : Nat} (h : bits w lo hi = some n) : n < 2 ^ (hi - lo + 1) := by
  have ordered : lo ≤ hi := by
    by_contra inverted
    rw [(bits_eq_none_iff w lo hi).2 (by omega)] at h
    cases h
  rw [bits_of_le w ordered] at h
  cases h
  exact BitVec.isLt _

end Sys2Proof.Laws

namespace Sys2Proof.Machine

/-! ### The adder's overflow (42 R150, R152) -/

theorem addWithCarry_overflow_eq_true_iff (a b : Word) (cin : Bool) : (addWithCarry a b cin).overflow = true ↔
    (addWithCarry a b cin).result.toInt ≠ a.toInt + b.toInt + (cin.toNat : Int) := decide_eq_true_iff

/-- A word as a signed number, by its sign bit. -/
theorem toInt_cases (w : Word) :
    (w.getLsbD 31 = true ∧ 2 ^ 31 ≤ w.toNat ∧ w.toInt = (w.toNat : Int) - 2 ^ 32) ∨
    (w.getLsbD 31 = false ∧ w.toNat < 2 ^ 31 ∧ w.toInt = (w.toNat : Int)) := by
  have sign : w.getLsbD 31 = decide (2 ^ 31 ≤ w.toNat) := by rw [← BitVec.msb_eq_getLsbD_last, BitVec.msb_eq_decide]
  rw [sign, BitVec.toInt_eq_toNat_cond]
  by_cases h : 2 ^ 31 ≤ w.toNat
  · exact .inl ⟨decide_eq_true h, h, if_neg (by omega)⟩
  · exact .inr ⟨decide_eq_false h, by omega, if_pos (by omega)⟩

/-- A sum overflows exactly when both operands have one sign and the result has the other (R152). -/
theorem addWithCarry_overflow_iff_signs (a b : Word) (cin : Bool) : (addWithCarry a b cin).overflow = true ↔
    a.getLsbD 31 = b.getLsbD 31 ∧ a.getLsbD 31 ≠ (addWithCarry a b cin).result.getLsbD 31 := by
  have exact_sum := addWithCarry_toNat a b cin
  have ha := a.isLt
  have hb := b.isLt
  have hcin := cin.toNat_le
  have hcarry := (addWithCarry a b cin).carry.toNat_le
  have hr := (addWithCarry a b cin).result.isLt
  rw [addWithCarry_overflow_eq_true_iff]
  generalize (addWithCarry a b cin).result = r at *
  obtain ⟨sa, _, ia⟩ | ⟨sa, _, ia⟩ := toInt_cases a <;>
    obtain ⟨sb, _, ib⟩ | ⟨sb, _, ib⟩ := toInt_cases b <;>
    obtain ⟨sr, _, ir⟩ | ⟨sr, _, ir⟩ := toInt_cases r <;>
    rw [ia, ib, ir, sa, sb, sr] <;> simp <;> omega

theorem addWithCarry_overflow_eq (a b : Word) (cin : Bool) : (addWithCarry a b cin).overflow =
    (~~~(a ^^^ b) &&& (a ^^^ (addWithCarry a b cin).result)).getLsbD 31 := by
  rw [Bool.eq_iff_iff, addWithCarry_overflow_iff_signs]
  simp only [BitVec.getLsbD_and, BitVec.getLsbD_xor, BitVec.getLsbD_not]
  cases a.getLsbD 31 <;> cases b.getLsbD 31 <;> simp

/-- The subtractive form: the complement has the other sign. -/
theorem addWithCarry_not_overflow_eq (a b : Word) (cin : Bool) : (addWithCarry a (~~~b) cin).overflow =
    ((a ^^^ b) &&& (a ^^^ (addWithCarry a (~~~b) cin).result)).getLsbD 31 := by
  rw [Bool.eq_iff_iff, addWithCarry_overflow_iff_signs]
  simp only [BitVec.getLsbD_and, BitVec.getLsbD_xor, BitVec.getLsbD_not]
  cases a.getLsbD 31 <;> cases b.getLsbD 31 <;> simp

/-! ### Operand 2 and the shifter (41 R131 to R138) -/

theorem getLsbD_rotateRight (v : Word) {n i : Nat} (hn : n < 32) (hi : i < 32) :
    (rotateRight v n).getLsbD i = v.getLsbD ((i + n) % 32) := by
  by_cases h0 : n = 0
  · simp [rotateRight, h0, Nat.mod_eq_of_lt hi]
  rw [rotateRight, if_neg h0, BitVec.getLsbD_or, BitVec.getLsbD_ushiftRight, BitVec.getLsbD_shiftLeft]
  by_cases wraps : i + n < 32
  · have low : i < 32 - n := by omega
    simp [low, Nat.mod_eq_of_lt wraps, Nat.add_comm n i]
  · have high : ¬ i < 32 - n := by omega
    have position : (i + n) % 32 = i - (32 - n) := by omega
    simp only [position, BitVec.getLsbD_of_ge v (n + i) (by omega), high, hi, decide_true,
      decide_false, Bool.not_false, Bool.true_and, Bool.false_or]

theorem getLsbD_immOperand (rotate : BitVec 4) (imm8 : BitVec 8) (cin : Bool) {i : Nat} (hi : i < 32) :
    (immOperand rotate imm8 cin).1.getLsbD i = imm8.getLsbD ((i + 2 * rotate.toNat) % 32) := by
  have below := rotate.isLt
  rw [immOperand, getLsbD_rotateRight _ (by omega) hi, BitVec.zeroExtend, BitVec.getLsbD_setWidth,
    decide_eq_true (Nat.mod_lt _ (by decide)), Bool.true_and]

/-- The carry-out of a rotation is the bit it brought to the top. -/
theorem getLsbD_31_rotateRight (v : Word) {n : Nat} (h0 : n ≠ 0) (hn : n < 32) :
    (rotateRight v n).getLsbD 31 = v.getLsbD (n - 1) := by
  have position : (31 + n) % 32 = n - 1 := by omega
  rw [getLsbD_rotateRight v hn (by decide), position]

/-- RRX: the carry flag enters at bit 31 and every bit moves down one (R138). -/
theorem getLsbD_rrx (v : Word) (cin : Bool) {i : Nat} (hi : i < 32) :
    (((BitVec.ofBool cin).zeroExtend 32 <<< 31) ||| (v >>> 1)).getLsbD i =
      if i = 31 then cin else v.getLsbD (i + 1) := by
  rw [BitVec.getLsbD_or, BitVec.getLsbD_shiftLeft, BitVec.getLsbD_ushiftRight]
  by_cases h31 : i = 31
  · subst h31
    simp
  · have below : i < 31 := by omega
    simp [h31, below, Nat.add_comm 1 i]

/-- ASR rounds down (R137). -/
theorem toInt_sshiftRight_eq_fdiv (v : Word) (n : Nat) : (v.sshiftRight n).toInt = Int.fdiv v.toInt (2 ^ n) := by
  rw [BitVec.toInt_sshiftRight, Int.shiftRight_eq_div_pow, Int.fdiv_eq_ediv_of_nonneg _ (by positivity)]
  norm_cast

end Sys2Proof.Machine

section
open Sys2Proof Sys2Proof.Machine Sys2Proof.Laws

/-- Settles O6: each utility answers inside its contract what the word's bits are, and `none` outside (R9, R10). -/
theorem bitUtilitiesObeyTheirLaws : Obligations.BitUtilitiesObeyTheirLaws := by
  refine ⟨fun w pos => ?_, bits_eq_none_iff, fun w s e n h => ⟨?_, bits_lt h⟩, fun w pos v hpos => ?_,
    fun w pos v hpos => ?_⟩
  · by_cases h : 31 < pos
    · rw [bitAt, if_neg (by omega), if_pos h]
    · rw [if_neg h, bitAt_of_le w (by omega)]
      rfl
  · by_cases inverted : e < s
    · rw [(bits_eq_none_iff w s e).2 inverted] at h
      cases h
    · rw [bits, if_neg inverted] at h
      exact (Option.some.inj h).symm
  · refine ⟨forceBit w pos v, setBit_of_le w hpos v, ?_, fun q hq => ?_⟩
    · rw [bitAt_of_le _ hpos, getLsbD_forceBit w v hpos, if_pos rfl]
    · simp only [bitAt, getLsbD_forceBit w v hpos, if_neg hq]
  · rw [setBit, if_neg (by omega)]

/-- Settles O9: a flag write forces one bit of the status register, above bit 27 (R27). -/
theorem flagWriteTouchesOneFlag : Obligations.FlagWriteTouchesOneFlag := fun s f g b =>
  ⟨flag_setFlag s f g b, fun _ => rfl, sameInert_of (setFlag_statusLow s f b) rfl rfl rfl rfl, rfl, rfl, rfl, rfl⟩

/-- Settles O10: the reset operation answers the reset state, whatever state it is given; its memory lists no cell. -/
theorem resetLeavesTheBootState : Obligations.ResetLeavesTheBootState := by
  refine fun s => ⟨State.reset, rfl, by decide, by decide, by decide, by decide, by decide, by decide, by decide,
    by decide, by decide, by decide, by decide, rfl, fun _ => rfl, fun a => ?_⟩
  cases hb : State.reset.backed a
  · exact readByte_of_not_backed hb
  · exact readByte_of_backed hb

/-- Settles O11: MOV's operand 2 through LSL #0 is the operand read of r15 (R26, R135). -/
theorem operandReadOfPcSeesThePrefetchOffset : Obligations.OperandReadOfPcSeesThePrefetchOffset := by
  refine ⟨operandReg_eq, fun s c sf rd h => ⟨_, exec_of_pass h, ?_⟩⟩
  exact (wroteResult_writeBack s sf rd _).dest.trans (operandReg_eq s 15)

/-- Settles O22, by running the step: the word at the boot address is zero, whose opcode is unsupported. -/
theorem emptyMachineFaultsAtTheBootAddress : Obligations.EmptyMachineFaultsAtTheBootAddress := by
  have fetched : State.reset.fetch = 0#32 := by decide
  have boot : State.reset.pc = 0x08000000#32 := by decide
  have faults := step_of_error (s := State.reset) (r := .opcode) (by decide) (by decide)
  rwa [fetched, boot] at faults

/-- Settles O23, by the four flags. -/
theorem conditionTableHolds : Obligations.ConditionTableHolds := by
  unfold Obligations.ConditionTableHolds
  decide

/-- Settles O54: the reads answer from the state they are given. -/
theorem interfaceReadsChangeNothing : Obligations.InterfaceReadsChangeNothing :=
  fun _ _ _ _ => ⟨rfl, rfl, rfl, rfl, rfl⟩

/-- Settles O34: a sum overflows when the operands have one sign and the result the other, and the complement turns the
sign of the second operand. -/
theorem overflowIsTheSignTest : Obligations.OverflowIsTheSignTest :=
  fun a b cin => ⟨addWithCarry_not_overflow_eq a b cin, addWithCarry_overflow_eq a b cin⟩

/-- Settles O35: the immediate operand is the zero-extended byte rotated (R131). -/
theorem immediateOperandRotatesRight : Obligations.ImmediateOperandRotatesRight :=
  fun s rotate imm8 => ⟨fun _ => getLsbD_immOperand rotate imm8 _, by
    simp only [State.operand2, immOperand, BitVec.msb_eq_getLsbD_last]⟩

/-- Settles O36, by the amount field's two cases. -/
theorem shifterShiftsAsEncoded : Obligations.ShifterShiftsAsEncoded := by
  intro v amt5 cin
  refine ⟨fun h0 => ?_, fun h0 => ?_⟩
  · simp only [barrelShift, shiftLsl, shiftLsr, shiftAsr, h0, if_true, BitVec.msb_eq_getLsbD_last, and_self]
  · simp only [barrelShift, shiftLsl, shiftLsr, shiftAsr, h0, if_false]
    refine ⟨fun i hi => ?_, trivial, ?_, trivial, toInt_sshiftRight_eq_fdiv v _, trivial⟩
    · simp only [BitVec.getLsbD_shiftLeft, hi, decide_true, Bool.true_and, ← decide_not, Nat.not_lt]
    · rw [BitVec.toNat_ushiftRight, Nat.shiftRight_eq_div_pow]

/-- Settles O37, by the amount field's two cases. -/
theorem shifterRotatesAsEncoded : Obligations.ShifterRotatesAsEncoded := by
  intro v amt5 cin
  refine ⟨fun h0 => ?_, fun h0 => ?_⟩
  · simp only [barrelShift, shiftRor, h0, if_true]
    exact ⟨fun i => getLsbD_rrx v cin, trivial⟩
  · have positive : amt5.toNat ≠ 0 := fun e => h0 (BitVec.eq_of_toNat_eq e)
    simp only [barrelShift, shiftRor, h0, if_false]
    exact ⟨fun i => getLsbD_rotateRight v amt5.isLt, trivial, (getLsbD_31_rotateRight v positive amt5.isLt).symm⟩

end

namespace Sys2Proof.Machine

/-! ### The encodings of the instructions -/

theorem decodesAs_imm (op : DpOp) : DecodesAs (immRow op).1 (immRow op).2 (decodeImm op) := fun w h =>
  have ⟨hclass, hop⟩ := (and_immMask_eq_iff w op).1 h
  decode_of_imm hclass hop

theorem decodesAs_reg (op : DpOp) : DecodesAs (regRow op).1 (regRow op).2 (decodeReg op) := fun w h => by
  obtain ⟨hclass, hop, hbit4⟩ := (and_regMask_eq_iff w op false).1 h
  rw [decode_of_reg hclass hop, hbit4, if_neg Bool.false_ne_true]

theorem decodesAs_branch (link : Bool) : DecodesAs (branchRow link).1 (branchRow link).2
    (fun w => if link then .bl (condField w) (field w 0 24) else .b (condField w) (field w 0 24)) := fun w h => by
  obtain ⟨hclass, hlink⟩ := (and_branchMask_eq_iff w link).1 h
  rw [decode_of_branch hclass, decodeBranch, hlink]

/-- Format DPR with a supported opcode and bit 4 set is no instruction (41 R133, decision D12). -/
theorem raisesOn_shiftForm (op : DpOp) :
    RaisesOn 0x0FE00010#32
      (0#4 ++ 0b000#3 ++ op.bits ++ 0#1 ++ 0#4 ++ 0#4 ++ 0#5 ++ 0#2 ++ BitVec.ofBool true ++ 0#4) .shiftForm := by
  intro s hp h
  obtain ⟨hclass, hop, hbit4⟩ := (and_regMask_eq_iff s.fetch op true).1 h
  exact step_of_error hp (by rw [decode_of_reg hclass hop, if_pos hbit4])

/-! ### Results and flags (42 R150 to R160) -/

/-- The flags of a result, in the terms of R151. -/
theorem flags_eq (out : AluOut) :
    out.flags = ⟨out.result.getLsbD 31, decide (out.result = 0#32), out.carry, out.overflow⟩ := by
  rw [AluOut.flags, BitVec.msb_eq_getLsbD_last, beq_eq_decide]

theorem addWithCarry_result_eq_sum (a b : Word) (cin : Bool) :
    (addWithCarry a b cin).result = a + b + BitVec.ofNat 32 cin.toNat := by
  rw [addWithCarry_result]
  cases cin <;> rfl

/-- The flags of a sum with a carry-in. -/
theorem flags_sum (a b : Word) (cin : Bool) : (addWithCarry a b cin).flags =
    ⟨(a + b + BitVec.ofNat 32 cin.toNat).getLsbD 31, decide (a + b + BitVec.ofNat 32 cin.toNat = 0#32),
      decide (2 ^ 32 ≤ a.toNat + b.toNat + cin.toNat),
      decide ((a + b + BitVec.ofNat 32 cin.toNat).toInt ≠ a.toInt + b.toInt + (cin.toNat : Int))⟩ := by
  rw [flags_eq, ← addWithCarry_result_eq_sum]
  rfl

theorem addWithCarry_result_eq_difference (a b : Word) (c : Bool) :
    (addWithCarry a (~~~b) c).result = a - b - BitVec.ofNat 32 (1 - c.toNat) := by
  rw [addWithCarry_not_result]
  cases c <;> rfl

theorem toInt_complement (b : Word) : (~~~b).toInt = -b.toInt - 1 := by
  have hb := b.isLt
  rw [BitVec.toInt_eq_toNat_cond, BitVec.toInt_eq_toNat_cond, BitVec.toNat_not]
  split_ifs <;> omega

/-- The flags of a difference, where a clear carry-in is a borrow: C is the absence of a borrow out of the whole
(90_conflicts.md C4). -/
theorem flags_difference (a b : Word) (c : Bool) : (addWithCarry a (~~~b) c).flags =
    ⟨(a - b - BitVec.ofNat 32 (1 - c.toNat)).getLsbD 31, decide (a - b - BitVec.ofNat 32 (1 - c.toNat) = 0#32),
      decide (b.toNat + (1 - c.toNat) ≤ a.toNat),
      decide ((a - b - BitVec.ofNat 32 (1 - c.toNat)).toInt ≠ a.toInt - b.toInt - ((1 - c.toNat : Nat) : Int))⟩ := by
  have carry : (addWithCarry a (~~~b) c).carry = decide (b.toNat + (1 - c.toNat) ≤ a.toNat) := by
    rw [Bool.eq_iff_iff, addWithCarry_not_carry_iff, decide_eq_true_iff]
    cases c <;> rfl
  have sum : a.toInt + (~~~b).toInt + (c.toNat : Int) = a.toInt - b.toInt - ((1 - c.toNat : Nat) : Int) := by
    rw [toInt_complement]
    cases c <;> simp <;> omega
  have overflow : (addWithCarry a (~~~b) c).overflow = decide ((addWithCarry a (~~~b) c).result.toInt ≠
      a.toInt - b.toInt - ((1 - c.toNat : Nat) : Int)) := by
    rw [← sum]
    rfl
  rw [flags_eq, carry, overflow, addWithCarry_result_eq_difference]

theorem addWithCarry_result_sub (a b : Word) : (addWithCarry a (~~~b) true).result = a - b := by
  simpa using addWithCarry_result_eq_difference a b true

/-- `wroteResult_writeBack` with the result and the flags as an instruction's rule names them. -/
theorem wroteResult_of {s : State} {sf : Bool} {rd : Reg} {out : AluOut} {r : Word} {f : Nzcv} (hr : out.result = r)
    (hf : out.flags = f) : WroteResult s (s.writeBack sf rd out) sf rd r f :=
  hr ▸ hf ▸ wroteResult_writeBack s sf rd out

theorem wroteResult_sub (s : State) (sf : Bool) (rd : Reg) (a b : Word) :
    WroteResult s (s.writeBack sf rd (addWithCarry a (~~~b) true)) sf rd (a - b)
      ⟨(a - b).getLsbD 31, decide (a - b = 0#32), decide (b.toNat ≤ a.toNat),
        decide ((a - b).toInt ≠ a.toInt - b.toInt)⟩ :=
  wroteResult_of (addWithCarry_result_sub a b) (by simpa using flags_difference a b true)

theorem wroteResult_add (s : State) (sf : Bool) (rd : Reg) (a b : Word) :
    WroteResult s (s.writeBack sf rd (addWithCarry a b false)) sf rd (a + b)
      ⟨(a + b).getLsbD 31, decide (a + b = 0#32), decide (2 ^ 32 ≤ a.toNat + b.toNat),
        decide ((a + b).toInt ≠ a.toInt + b.toInt)⟩ :=
  wroteResult_of (by simpa using addWithCarry_result_eq_sum a b false) (by simpa using flags_sum a b false)

/-- The flags of CMP: those of the difference, with the overflow as the source's sign test. -/
theorem flags_compare (a b : Word) : (addWithCarry a (~~~b) true).flags =
    ⟨(a - b).getLsbD 31, decide (a = b), decide (b.toNat ≤ a.toNat), ((a ^^^ b) &&& (a ^^^ (a - b))).getLsbD 31⟩ := by
  have equal : decide (a - b = 0#32) = decide (a = b) := decide_eq_decide.2 sub_eq_zero
  have carry : (addWithCarry a (~~~b) true).carry = decide (b.toNat ≤ a.toNat) := by
    rw [Bool.eq_iff_iff, addWithCarry_not_carry_iff, decide_eq_true_iff]
    rfl
  rw [flags_eq, carry, addWithCarry_not_overflow_eq, addWithCarry_result_sub, equal]

theorem compared_compare (s : State) (a b : Word) : Compared s (s.compareBack (addWithCarry a (~~~b) true))
    ⟨(a - b).getLsbD 31, decide (a = b), decide (b.toNat ≤ a.toNat), ((a ^^^ b) &&& (a ^^^ (a - b))).getLsbD 31⟩ :=
  flags_compare a b ▸ compared_compareBack s _

theorem wroteResult_move (s : State) (sf : Bool) (rd : Reg) (b : Word × Bool) :
    WroteResult s (s.writeBack sf rd ⟨b.1, b.2, s.flag .v⟩) sf rd b.1
      ⟨b.1.getLsbD 31, decide (b.1 = 0#32), b.2, s.flag .v⟩ :=
  wroteResult_of rfl (flags_eq _)

/-! ### Branches (43 R181 to R185) -/

theorem signExtend_mul_four (imm24 : BitVec 24) :
    imm24.signExtend 32 * 4#32 = BitVec.ofInt 32 (4 * imm24.toInt) := by
  rw [Int.mul_comm, BitVec.ofInt_mul]
  rfl

/-- The offset as the sign extension of the field with two zero bits appended (R181). -/
theorem signExtend_append_zeros (imm24 : BitVec 24) :
    (imm24 ++ 0b00#2).signExtend 32 = imm24.signExtend 32 * 4#32 := by
  rw [signExtend_mul_four, BitVec.signExtend, BitVec.toInt_append_zero]
  rfl

theorem branchTarget_eq_ofInt (a : Word) (imm24 : BitVec 24) :
    branchTarget a imm24 = a + 8#32 + BitVec.ofInt 32 (4 * imm24.toInt) := by
  rw [branchTarget_eq, signExtend_mul_four]

/-- Both sums of the target add a multiple of four (R185). -/
theorem branchTarget_low_bits (a : Word) (imm24 : BitVec 24) :
    (branchTarget a imm24).extractLsb' 0 2 = a.extractLsb' 0 2 := by
  apply BitVec.eq_of_toNat_eq
  rw [branchTarget_eq, BitVec.extractLsb'_toNat, BitVec.extractLsb'_toNat, BitVec.toNat_add, BitVec.toNat_add,
    BitVec.toNat_mul, BitVec.toNat_ofNat, BitVec.toNat_ofNat]
  omega

theorem setPc_pc (s : State) : s.setPc s.pc = s := by
  rw [State.setPc, State.writeReg, State.pc, State.readReg]
  congr
  exact Vector.set_getElem_self _

/-- The field of a word is known where a mask that keeps it leaves a known value. -/
theorem field_of_masked {w m a : Word} {lo len : Nat} (h : w &&& m = a) (hm : field m lo len = BitVec.allOnes len) :
    field w lo len = field a lo len := by
  rw [← h, field_and_kept hm]

/-- A word of a branch to itself: B with offset -2 (43 R182). -/
theorem decode_selfBranch {w : Word} (h : w &&& 0x0FFFFFFF#32 = 0x0AFFFFFE#32) :
    decode w = .ok (.b (condField w) 0xFFFFFE#24) := by
  have hclass : field w 25 3 = 0b101#3 := field_of_masked h (by decide)
  have hlink : w.getLsbD 24 = false := (field_one_eq_ofBool_iff w 24 false).1 (field_of_masked h (by decide))
  have hoffset : field w 0 24 = 0xFFFFFE#24 := field_of_masked h (by decide)
  rw [decode_of_branch hclass, decodeBranch, hlink, hoffset, if_neg Bool.false_ne_true]

/-- A branch to itself leaves the state as it is. -/
theorem step_selfBranch {s : State} (h : s.fetch &&& 0x0FFFFFFF#32 = 0x0AFFFFFE#32) (hp : s.passes = true) :
    step s = .next s := by
  have target : branchTarget s.pc 0xFFFFFE#24 = s.pc := by
    rw [branchTarget_eq, BitVec.add_assoc]
    exact BitVec.add_zero _
  rw [step_of_decode_of_pass hp (decode_selfBranch h), effect, target, setPc_pc]

/-- A state the step leaves as it is stays so for every number of steps. -/
theorem run_of_step_self {M : Host.Core} {s : M.State} (h : M.step s = .next s) (n : Nat) : M.run n s = .next s := by
  induction n with
  | zero => rfl
  | succ n ih =>
    rw [Host.Core.run, h]
    exact ih

/-- CMP leaves the flags that SUB with S = 1 leaves, skipped or not (R159). -/
theorem compare_flags_eq_subtract (s : State) (c : Cond) (rn rd : Reg) (op : Operand2) :
    ∃ t u, compare c rn op s = .next t ∧ subtract c true rn rd op s = .next u ∧ t.nzcv = u.nzcv := by
  cases h : condPass c s.nzcv
  · exact ⟨_, _, whenPassed_fail h _, whenPassed_fail h _, rfl⟩
  · exact ⟨_, _, whenPassed_pass h _, whenPassed_pass h _,
      (compared_compareBack s _).flags.trans (wroteResult_writeBack s true rd _).flags.symm⟩

end Sys2Proof.Machine

section
open Sys2Proof Sys2Proof.Machine

/-- Settles O38: subtraction is the sum with the complement and a carry-in of 1, written back (R155). -/
theorem subFollowsItsRule : Obligations.SubFollowsItsRule :=
  ⟨decodesAs_imm .sub, decodesAs_reg .sub, raisesOn_shiftForm .sub, fun s _ sf _ rd h =>
    ⟨fun _ _ => ⟨_, exec_of_pass h, wroteResult_sub s sf rd _ _⟩,
      fun _ _ => ⟨_, exec_of_pass h, wroteResult_sub s sf rd _ _⟩⟩⟩

/-- Settles O39: the sum with a carry-in of 0, written back (R156). -/
theorem addFollowsItsRule : Obligations.AddFollowsItsRule :=
  ⟨decodesAs_imm .add, decodesAs_reg .add, raisesOn_shiftForm .add, fun s _ sf _ rd h =>
    ⟨fun _ _ => ⟨_, exec_of_pass h, wroteResult_add s sf rd _ _⟩,
      fun _ _ => ⟨_, exec_of_pass h, wroteResult_add s sf rd _ _⟩⟩⟩

/-- Settles O40: the sum with the carry flag as the carry-in. -/
theorem adcFollowsItsRule : Obligations.AdcFollowsItsRule :=
  ⟨decodesAs_imm .adc, decodesAs_reg .adc, raisesOn_shiftForm .adc, fun _ _ _ _ _ h =>
    ⟨fun _ _ => ⟨_, exec_of_pass h, wroteResult_of (addWithCarry_result_eq_sum _ _ _) (flags_sum _ _ _)⟩,
      fun _ _ => ⟨_, exec_of_pass h, wroteResult_of (addWithCarry_result_eq_sum _ _ _) (flags_sum _ _ _)⟩⟩⟩

/-- Settles O41: the difference with a clear carry flag as a borrow. -/
theorem sbcFollowsItsRule : Obligations.SbcFollowsItsRule :=
  ⟨decodesAs_imm .sbc, decodesAs_reg .sbc, raisesOn_shiftForm .sbc, fun _ _ _ _ _ h =>
    ⟨fun _ _ => ⟨_, exec_of_pass h, wroteResult_of (addWithCarry_result_eq_difference _ _ _) (flags_difference _ _ _)⟩,
      fun _ _ => ⟨_, exec_of_pass h,
        wroteResult_of (addWithCarry_result_eq_difference _ _ _) (flags_difference _ _ _)⟩⟩⟩

/-- Settles O42: the flags of the subtraction, and no register but r15 written (R159). -/
theorem cmpFollowsItsRule : Obligations.CmpFollowsItsRule :=
  ⟨decodesAs_imm .cmp, decodesAs_reg .cmp, raisesOn_shiftForm .cmp, fun s _ _ h =>
    ⟨fun _ _ => ⟨_, exec_of_pass h, compared_compare s _ _⟩,
      fun _ _ => ⟨_, exec_of_pass h, compared_compare s _ _⟩⟩⟩

/-- Settles O43: operand 2 and its carry-out, with V as it was, written back (R160). -/
theorem movFollowsItsRule : Obligations.MovFollowsItsRule :=
  ⟨decodesAs_imm .mov, decodesAs_reg .mov, raisesOn_shiftForm .mov, fun s _ sf rd h =>
    ⟨fun _ _ => ⟨_, exec_of_pass h, wroteResult_move s sf rd _⟩,
      fun _ _ => ⟨_, exec_of_pass h, wroteResult_move s sf rd _⟩⟩⟩

/-- Settles O44: class 101 with L = 0, and the target's offset as a signed multiple of four. -/
theorem branchFollowsItsRule : Obligations.BranchFollowsItsRule :=
  ⟨decodesAs_branch false, fun s _ imm24 h =>
    ⟨_, exec_of_pass h, branchTarget_eq_ofInt s.pc imm24 ▸ branched_setPc s false _⟩⟩

/-- Settles O45: as B, with L = 1 and the link register written before the program counter. -/
theorem branchLinkFollowsItsRule : Obligations.BranchLinkFollowsItsRule :=
  ⟨decodesAs_branch true, fun s _ imm24 h =>
    ⟨_, exec_of_pass h, branchTarget_eq_ofInt s.pc imm24 ▸ branched_setPc s true _⟩⟩

/-- Settles O46: B and BL set the program counter to one target, whose sums add multiples of four. -/
theorem branchKeepsTheAlignmentOfThePc : Obligations.BranchKeepsTheAlignmentOfThePc := by
  intro s c imm24 h i hi
  have taken : ∃ t, exec i s = .next t ∧ t.pc = branchTarget s.pc imm24 := by
    obtain rfl | rfl := hi
    · exact ⟨_, exec_of_pass h, pc_setPc _ _⟩
    · exact ⟨_, exec_of_pass h, pc_setPc _ _⟩
  obtain ⟨t, hstep, hpc⟩ := taken
  refine ⟨t, hstep, ?_, ?_⟩
  · rw [hpc, branchTarget_eq, signExtend_append_zeros]
  · rw [hpc, branchTarget_low_bits]

/-- Settles O47: BL leaves A + 4 in r14, and MOV from r14 through LSL #0 puts it into r15 as it is. -/
theorem linkedCallReturnsAfterTheCall : Obligations.LinkedCallReturnsAfterTheCall := by
  intro s t u c d sf imm24 hc hcall hlink hd
  rw [exec_of_pass (i := .bl c imm24) hc] at hcall
  cases hcall
  have link := (branched_setPc s true (branchTarget s.pc imm24)).linkReg
  exact ⟨_, exec_of_pass hd, (wroteResult_writeBack u sf 15 _).dest.trans (hlink.trans link)⟩

/-- Settles O48, by induction on the number of steps. -/
theorem branchToItselfRunsForever : Obligations.BranchToItselfRunsForever :=
  fun _ h hp => run_of_step_self (M := Sys2Proof.core) (step_selfBranch h hp)

/-- Settles O49: with the carry flag known the two instructions are one adder call. -/
theorem arithmeticLawsRelateTheInstructions : Obligations.ArithmeticLawsRelateTheInstructions := by
  intro s c sf rn rd rm rotate imm8 shift
  refine ⟨fun h => ⟨?_, ?_⟩, fun h => ⟨?_, ?_⟩, compare_flags_eq_subtract s c rn rd _,
    compare_flags_eq_subtract s c rn rd _⟩
  all_goals simp only [exec_eq_whenPassed, effect, Instr.cond, h]

end
